-- ==== Sys2Proof/Word.lean ====
section
/-! DEFINITION. The two units of data of the machine: the byte, which is the unit of memory, and the 16-bit word,
which is the width of every register and of every data access (spec/00_scope.md rule R5, spec/10_state.md rule R20).
Both are unsigned bit patterns; their arithmetic is `BitVec`'s, which wraps modulo 2^8 and 2^16 (rule R6 (b)). -/

namespace Sys2Proof

/-- A byte of memory, bits 7 (most significant) down to 0 (R5). -/
abbrev Byte := BitVec 8

/-- A register value, a memory word, a literal or a 16-bit address, bits 15 down to 0 (R5). -/
abbrev Word := BitVec 16

/-- The two widths of a memory access, as a stop record names them (R31, R51). -/
inductive Width where
  | byte
  | word
  deriving DecidableEq, Repr

end Sys2Proof
end

