-- ==== Sys2Proof/Machine/Flags.lean ====
section
/-! DEFINITION. This machine has no flags register and no condition code, and no instruction writes a flag
(spec/10_state.md rule R34, spec/40_cycle_operands.md rule R121). What stands here is all that its arithmetic unit
computes: the 16-bit adder of ADD, whose carry is dropped, and the comparator of JNE. -/

namespace Sys2Proof.Machine

/-- The adder (R160, R161): the integer sum reduced modulo 65536; no carry is kept. -/
def addWords (a b : Word) : Word := a + b

/-- The comparator (R180, R181): inequality of two 16-bit patterns, all bits taking part. -/
def differs (a b : Word) : Bool := a != b

end Sys2Proof.Machine
end

