-- ==== Sys2Proof/Syntax.lean ====
section
/-! DEFINITION. The abstract syntax: the eight registers an operand may name, and one constructor for each of the 57
rows of spec/opcode_table.json. A constructor's name is its mnemonic: the operation, then the letters of the
addressing modes of operand A and operand B (L literal, R register, D direct, I register-indirect; rules R83, R92).
The arguments are the payloads in the order they stand in memory: a word for modes L and D, a register for modes R
and I (R84). A register payload is a `Reg`, so that a byte above 7, which names no register (R90), cannot be written
down here: the decoder is the only place that meets one. -/

namespace Sys2Proof

/-- The eight registers, in the order of their numbers 0 to 7 (R20, R21). -/
inductive Reg where
  | ip
  | acc
  | r1
  | r2
  | r3
  | r4
  | sp
  | fp
  deriving DecidableEq, Repr

/-- The 57 instructions (R92). -/
inductive Instr where
  /-- `MOV #immA, Rb` (R141). -/
  | movLR (immA : Word) (rb : Reg)
  /-- `MOV #immA, [addrB]` (R142). -/
  | movLD (immA : Word) (addrB : Word)
  /-- `MOV #immA, [Rb]` (R143). -/
  | movLI (immA : Word) (rb : Reg)
  /-- `MOV Ra, Rb` (R144). -/
  | movRR (ra : Reg) (rb : Reg)
  /-- `MOV Ra, [addrB]` (R145). -/
  | movRD (ra : Reg) (addrB : Word)
  /-- `MOV Ra, [Rb]` (R146). -/
  | movRI (ra : Reg) (rb : Reg)
  /-- `MOV [addrA], Rb` (R147). -/
  | movDR (addrA : Word) (rb : Reg)
  /-- `MOV [addrA], [addrB]` (R148). -/
  | movDD (addrA : Word) (addrB : Word)
  /-- `MOV [addrA], [Rb]` (R149). -/
  | movDI (addrA : Word) (rb : Reg)
  /-- `MOV [Ra], Rb` (R150). -/
  | movIR (ra : Reg) (rb : Reg)
  /-- `MOV [Ra], [addrB]` (R151). -/
  | movID (ra : Reg) (addrB : Word)
  /-- `MOV [Ra], [Rb]` (R152). -/
  | movII (ra : Reg) (rb : Reg)
  /-- `ADD #immA, #immB` (R162). -/
  | addLL (immA : Word) (immB : Word)
  /-- `ADD #immA, Rb` (R163). -/
  | addLR (immA : Word) (rb : Reg)
  /-- `ADD #immA, [addrB]` (R164). -/
  | addLD (immA : Word) (addrB : Word)
  /-- `ADD #immA, [Rb]` (R165). -/
  | addLI (immA : Word) (rb : Reg)
  /-- `ADD Ra, #immB` (R166). -/
  | addRL (ra : Reg) (immB : Word)
  /-- `ADD Ra, Rb` (R167). -/
  | addRR (ra : Reg) (rb : Reg)
  /-- `ADD Ra, [addrB]` (R168). -/
  | addRD (ra : Reg) (addrB : Word)
  /-- `ADD Ra, [Rb]` (R169). -/
  | addRI (ra : Reg) (rb : Reg)
  /-- `ADD [addrA], #immB` (R170). -/
  | addDL (addrA : Word) (immB : Word)
  /-- `ADD [addrA], Rb` (R171). -/
  | addDR (addrA : Word) (rb : Reg)
  /-- `ADD [addrA], [addrB]` (R172). -/
  | addDD (addrA : Word) (addrB : Word)
  /-- `ADD [addrA], [Rb]` (R173). -/
  | addDI (addrA : Word) (rb : Reg)
  /-- `ADD [Ra], #immB` (R174). -/
  | addIL (ra : Reg) (immB : Word)
  /-- `ADD [Ra], Rb` (R175). -/
  | addIR (ra : Reg) (rb : Reg)
  /-- `ADD [Ra], [addrB]` (R176). -/
  | addID (ra : Reg) (addrB : Word)
  /-- `ADD [Ra], [Rb]` (R177). -/
  | addII (ra : Reg) (rb : Reg)
  /-- `JNE #immA, #immB` (R182). -/
  | jneLL (immA : Word) (immB : Word)
  /-- `JNE #immA, Rb` (R183). -/
  | jneLR (immA : Word) (rb : Reg)
  /-- `JNE #immA, [addrB]` (R184). -/
  | jneLD (immA : Word) (addrB : Word)
  /-- `JNE #immA, [Rb]` (R185). -/
  | jneLI (immA : Word) (rb : Reg)
  /-- `JNE Ra, #immB` (R186). -/
  | jneRL (ra : Reg) (immB : Word)
  /-- `JNE Ra, Rb` (R187). -/
  | jneRR (ra : Reg) (rb : Reg)
  /-- `JNE Ra, [addrB]` (R188). -/
  | jneRD (ra : Reg) (addrB : Word)
  /-- `JNE Ra, [Rb]` (R189). -/
  | jneRI (ra : Reg) (rb : Reg)
  /-- `JNE [addrA], #immB` (R190). -/
  | jneDL (addrA : Word) (immB : Word)
  /-- `JNE [addrA], Rb` (R191). -/
  | jneDR (addrA : Word) (rb : Reg)
  /-- `JNE [addrA], [addrB]` (R192). -/
  | jneDD (addrA : Word) (addrB : Word)
  /-- `JNE [addrA], [Rb]` (R193). -/
  | jneDI (addrA : Word) (rb : Reg)
  /-- `JNE [Ra], #immB` (R194). -/
  | jneIL (ra : Reg) (immB : Word)
  /-- `JNE [Ra], Rb` (R195). -/
  | jneIR (ra : Reg) (rb : Reg)
  /-- `JNE [Ra], [addrB]` (R196). -/
  | jneID (ra : Reg) (addrB : Word)
  /-- `JNE [Ra], [Rb]` (R197). -/
  | jneII (ra : Reg) (rb : Reg)
  /-- `PSH #immA` (R202). -/
  | pshL (immA : Word)
  /-- `PSH Ra` (R203). -/
  | pshR (ra : Reg)
  /-- `PSH [addrA]` (R204). -/
  | pshD (addrA : Word)
  /-- `PSH [Ra]` (R205). -/
  | pshI (ra : Reg)
  /-- `POP Ra` (R206). -/
  | popR (ra : Reg)
  /-- `POP [addrA]` (R207). -/
  | popD (addrA : Word)
  /-- `POP [Ra]` (R208). -/
  | popI (ra : Reg)
  /-- `CAL #immA` (R223). -/
  | calL (immA : Word)
  /-- `CAL Ra` (R224). -/
  | calR (ra : Reg)
  /-- `CAL [addrA]` (R225). -/
  | calD (addrA : Word)
  /-- `CAL [Ra]` (R226). -/
  | calI (ra : Reg)
  /-- `RET` (R228). -/
  | ret
  /-- `HLT` (R240). -/
  | hlt
  deriving DecidableEq, Repr

end Sys2Proof
end

