-- ==== Sys2Proof/Decode.lean ====
section
/-! DEFINITION. The decoder and, after it, the encoder, both written from spec/30_encoding.md: the seven byte layouts
(R87), the opcode map (R92), the decoding order (R88) and the two kinds of illegal encoding (R89, R90). The decoder
takes the bytes of memory from the instruction's address on, as many as memory has (five at most are looked at), and
is total: it answers an instruction, or the byte no instruction admits, or the access that memory was too short for.
Nothing is fetched or checked beyond the first failing step. -/

namespace Sys2Proof

/-- Register numbers 0 to 7 (R21); a byte above 7 names no register (R90) and is not reduced modulo 8. -/
def regOfByte (b : Byte) : Option Reg :=
  match b.toNat with
  | 0 => some .ip
  | 1 => some .acc
  | 2 => some .r1
  | 3 => some .r2
  | 4 => some .r3
  | 5 => some .r4
  | 6 => some .sp
  | 7 => some .fp
  | _ => none

/-- The payload byte that names a register (R21). -/
def regByte : Reg → Byte
  | .ip => 0
  | .acc => 1
  | .r1 => 2
  | .r2 => 3
  | .r3 => 4
  | .r4 => 5
  | .sp => 6
  | .fp => 7

/-- A word from its two bytes, the byte at the lower address more significant (R52, R84). -/
def wordOfBytes (hi lo : Byte) : Word := hi ++ lo

/-- The more significant byte of a word, the one at the lower address: `v[15:8]` (R52, R56). -/
def hiByte (v : Word) : Byte := v.extractLsb' 8 8

/-- The less significant byte of a word: `v[7:0]` (R52, R56). -/
def loByte (v : Word) : Byte := v.extractLsb' 0 8

/-- The outcome of decoding (R88, R91). Offsets are counted from the leading byte. -/
inductive Decoded where
  /-- Exactly one instruction with legal register numbers. -/
  | instr (i : Instr)
  /-- `signal IllegalOpcode`: the byte at this offset is an unassigned leading byte (R89) or a register payload above
  7 (R90). -/
  | illegal (off : Nat) (b : Byte)
  /-- Memory ends before the payload that begins at this offset: an out-of-bounds read of this width (R88, R57). -/
  | cut (off : Nat) (w : Width)
  deriving DecidableEq, Repr

/-- Read the word payload at `off` (R84), and go on with the bytes after it. -/
def takeWord (off : Nat) (bs : List Byte) (k : Word → List Byte → Decoded) : Decoded :=
  match bs with
  | hi :: lo :: rest => k (wordOfBytes hi lo) rest
  | _ => .cut off .word

/-- Read the register payload at `off`: first whether memory holds the byte, then whether it names a register
(R88, R90); and go on with the bytes after it. -/
def takeReg (off : Nat) (bs : List Byte) (k : Reg → List Byte → Decoded) : Decoded :=
  match bs with
  | b :: rest =>
    match regOfByte b with
    | some r => k r rest
    | none => .illegal off b
  | [] => .cut off .byte

/-- Format FB: a register payload at 1 (R87). -/
def decodeFB (mk : Reg → Instr) (bs : List Byte) : Decoded :=
  takeReg 1 bs fun a _ => .instr (mk a)

/-- Format FW: a word payload at 1 (R87). -/
def decodeFW (mk : Word → Instr) (bs : List Byte) : Decoded :=
  takeWord 1 bs fun a _ => .instr (mk a)

/-- Format FBB: register payloads at 1 and 2 (R87). -/
def decodeFBB (mk : Reg → Reg → Instr) (bs : List Byte) : Decoded :=
  takeReg 1 bs fun a bs => takeReg 2 bs fun b _ => .instr (mk a b)

/-- Format FBW: a register payload at 1, a word payload at 2 (R87). -/
def decodeFBW (mk : Reg → Word → Instr) (bs : List Byte) : Decoded :=
  takeReg 1 bs fun a bs => takeWord 2 bs fun b _ => .instr (mk a b)

/-- Format FWB: a word payload at 1, a register payload at 3 (R87). -/
def decodeFWB (mk : Word → Reg → Instr) (bs : List Byte) : Decoded :=
  takeWord 1 bs fun a bs => takeReg 3 bs fun b _ => .instr (mk a b)

/-- Format FWW: word payloads at 1 and 3 (R87). -/
def decodeFWW (mk : Word → Word → Instr) (bs : List Byte) : Decoded :=
  takeWord 1 bs fun a bs => takeWord 3 bs fun b _ => .instr (mk a b)

/-- `Decode` (R88) by the opcode map (R92): the leading byte chooses the form, and an unassigned leading byte is
illegal whatever follows it (R89). -/
def decode : List Byte → Decoded
  | [] => .cut 0 .byte
  | b0 :: bs =>
    match b0.toNat with
    | 0x11 => decodeFWB .movLR bs
    | 0x12 => decodeFWW .movLD bs
    | 0x13 => decodeFWB .movLI bs
    | 0x15 => decodeFBB .movRR bs
    | 0x16 => decodeFBW .movRD bs
    | 0x17 => decodeFBB .movRI bs
    | 0x19 => decodeFWB .movDR bs
    | 0x1A => decodeFWW .movDD bs
    | 0x1B => decodeFWB .movDI bs
    | 0x1D => decodeFBB .movIR bs
    | 0x1E => decodeFBW .movID bs
    | 0x1F => decodeFBB .movII bs
    | 0x20 => decodeFWW .addLL bs
    | 0x21 => decodeFWB .addLR bs
    | 0x22 => decodeFWW .addLD bs
    | 0x23 => decodeFWB .addLI bs
    | 0x24 => decodeFBW .addRL bs
    | 0x25 => decodeFBB .addRR bs
    | 0x26 => decodeFBW .addRD bs
    | 0x27 => decodeFBB .addRI bs
    | 0x28 => decodeFWW .addDL bs
    | 0x29 => decodeFWB .addDR bs
    | 0x2A => decodeFWW .addDD bs
    | 0x2B => decodeFWB .addDI bs
    | 0x2C => decodeFBW .addIL bs
    | 0x2D => decodeFBB .addIR bs
    | 0x2E => decodeFBW .addID bs
    | 0x2F => decodeFBB .addII bs
    | 0x30 => decodeFWW .jneLL bs
    | 0x31 => decodeFWB .jneLR bs
    | 0x32 => decodeFWW .jneLD bs
    | 0x33 => decodeFWB .jneLI bs
    | 0x34 => decodeFBW .jneRL bs
    | 0x35 => decodeFBB .jneRR bs
    | 0x36 => decodeFBW .jneRD bs
    | 0x37 => decodeFBB .jneRI bs
    | 0x38 => decodeFWW .jneDL bs
    | 0x39 => decodeFWB .jneDR bs
    | 0x3A => decodeFWW .jneDD bs
    | 0x3B => decodeFWB .jneDI bs
    | 0x3C => decodeFBW .jneIL bs
    | 0x3D => decodeFBB .jneIR bs
    | 0x3E => decodeFBW .jneID bs
    | 0x3F => decodeFBB .jneII bs
    | 0x40 => decodeFW .pshL bs
    | 0x44 => decodeFB .pshR bs
    | 0x48 => decodeFW .pshD bs
    | 0x4C => decodeFB .pshI bs
    | 0x54 => decodeFB .popR bs
    | 0x58 => decodeFW .popD bs
    | 0x5C => decodeFB .popI bs
    | 0x60 => decodeFW .calL bs
    | 0x64 => decodeFB .calR bs
    | 0x68 => decodeFW .calD bs
    | 0x6C => decodeFB .calI bs
    | 0x70 => .instr .ret
    | 0x80 => .instr .hlt
    | _ => .illegal 0 b0

/-- The leading byte of an instruction (R92). -/
def leadByte : Instr → Byte
  | .movLR _ _ => 0x11#8
  | .movLD _ _ => 0x12#8
  | .movLI _ _ => 0x13#8
  | .movRR _ _ => 0x15#8
  | .movRD _ _ => 0x16#8
  | .movRI _ _ => 0x17#8
  | .movDR _ _ => 0x19#8
  | .movDD _ _ => 0x1A#8
  | .movDI _ _ => 0x1B#8
  | .movIR _ _ => 0x1D#8
  | .movID _ _ => 0x1E#8
  | .movII _ _ => 0x1F#8
  | .addLL _ _ => 0x20#8
  | .addLR _ _ => 0x21#8
  | .addLD _ _ => 0x22#8
  | .addLI _ _ => 0x23#8
  | .addRL _ _ => 0x24#8
  | .addRR _ _ => 0x25#8
  | .addRD _ _ => 0x26#8
  | .addRI _ _ => 0x27#8
  | .addDL _ _ => 0x28#8
  | .addDR _ _ => 0x29#8
  | .addDD _ _ => 0x2A#8
  | .addDI _ _ => 0x2B#8
  | .addIL _ _ => 0x2C#8
  | .addIR _ _ => 0x2D#8
  | .addID _ _ => 0x2E#8
  | .addII _ _ => 0x2F#8
  | .jneLL _ _ => 0x30#8
  | .jneLR _ _ => 0x31#8
  | .jneLD _ _ => 0x32#8
  | .jneLI _ _ => 0x33#8
  | .jneRL _ _ => 0x34#8
  | .jneRR _ _ => 0x35#8
  | .jneRD _ _ => 0x36#8
  | .jneRI _ _ => 0x37#8
  | .jneDL _ _ => 0x38#8
  | .jneDR _ _ => 0x39#8
  | .jneDD _ _ => 0x3A#8
  | .jneDI _ _ => 0x3B#8
  | .jneIL _ _ => 0x3C#8
  | .jneIR _ _ => 0x3D#8
  | .jneID _ _ => 0x3E#8
  | .jneII _ _ => 0x3F#8
  | .pshL _ => 0x40#8
  | .pshR _ => 0x44#8
  | .pshD _ => 0x48#8
  | .pshI _ => 0x4C#8
  | .popR _ => 0x54#8
  | .popD _ => 0x58#8
  | .popI _ => 0x5C#8
  | .calL _ => 0x60#8
  | .calR _ => 0x64#8
  | .calD _ => 0x68#8
  | .calI _ => 0x6C#8
  | .ret => 0x70#8
  | .hlt => 0x80#8

/-- The payload bytes of an instruction, operand A before operand B, words more significant byte first
(R84, R87). -/
def payloadBytes : Instr → List Byte
  | .movLR a b => [hiByte a, loByte a, regByte b]
  | .movLD a b => [hiByte a, loByte a, hiByte b, loByte b]
  | .movLI a b => [hiByte a, loByte a, regByte b]
  | .movRR a b => [regByte a, regByte b]
  | .movRD a b => [regByte a, hiByte b, loByte b]
  | .movRI a b => [regByte a, regByte b]
  | .movDR a b => [hiByte a, loByte a, regByte b]
  | .movDD a b => [hiByte a, loByte a, hiByte b, loByte b]
  | .movDI a b => [hiByte a, loByte a, regByte b]
  | .movIR a b => [regByte a, regByte b]
  | .movID a b => [regByte a, hiByte b, loByte b]
  | .movII a b => [regByte a, regByte b]
  | .addLL a b => [hiByte a, loByte a, hiByte b, loByte b]
  | .addLR a b => [hiByte a, loByte a, regByte b]
  | .addLD a b => [hiByte a, loByte a, hiByte b, loByte b]
  | .addLI a b => [hiByte a, loByte a, regByte b]
  | .addRL a b => [regByte a, hiByte b, loByte b]
  | .addRR a b => [regByte a, regByte b]
  | .addRD a b => [regByte a, hiByte b, loByte b]
  | .addRI a b => [regByte a, regByte b]
  | .addDL a b => [hiByte a, loByte a, hiByte b, loByte b]
  | .addDR a b => [hiByte a, loByte a, regByte b]
  | .addDD a b => [hiByte a, loByte a, hiByte b, loByte b]
  | .addDI a b => [hiByte a, loByte a, regByte b]
  | .addIL a b => [regByte a, hiByte b, loByte b]
  | .addIR a b => [regByte a, regByte b]
  | .addID a b => [regByte a, hiByte b, loByte b]
  | .addII a b => [regByte a, regByte b]
  | .jneLL a b => [hiByte a, loByte a, hiByte b, loByte b]
  | .jneLR a b => [hiByte a, loByte a, regByte b]
  | .jneLD a b => [hiByte a, loByte a, hiByte b, loByte b]
  | .jneLI a b => [hiByte a, loByte a, regByte b]
  | .jneRL a b => [regByte a, hiByte b, loByte b]
  | .jneRR a b => [regByte a, regByte b]
  | .jneRD a b => [regByte a, hiByte b, loByte b]
  | .jneRI a b => [regByte a, regByte b]
  | .jneDL a b => [hiByte a, loByte a, hiByte b, loByte b]
  | .jneDR a b => [hiByte a, loByte a, regByte b]
  | .jneDD a b => [hiByte a, loByte a, hiByte b, loByte b]
  | .jneDI a b => [hiByte a, loByte a, regByte b]
  | .jneIL a b => [regByte a, hiByte b, loByte b]
  | .jneIR a b => [regByte a, regByte b]
  | .jneID a b => [regByte a, hiByte b, loByte b]
  | .jneII a b => [regByte a, regByte b]
  | .pshL a => [hiByte a, loByte a]
  | .pshR a => [regByte a]
  | .pshD a => [hiByte a, loByte a]
  | .pshI a => [regByte a]
  | .popR a => [regByte a]
  | .popD a => [hiByte a, loByte a]
  | .popI a => [regByte a]
  | .calL a => [hiByte a, loByte a]
  | .calR a => [regByte a]
  | .calD a => [hiByte a, loByte a]
  | .calI a => [regByte a]
  | .ret => []
  | .hlt => []

/-- The bytes of an instruction in address order (R80, R87). -/
def encode (i : Instr) : List Byte := leadByte i :: payloadBytes i

/-- The length of an instruction in bytes, `len` of R86. -/
def instrLength (i : Instr) : Nat := (encode i).length

/-- The bytes of an instruction whose bits are `w`, numbered as spec/opcode_table.json numbers them (bit 0 is the
least significant bit of the first byte); only the low `nbits` bits count, the bits above them are 0. Five bytes,
the longest instruction. -/
def tableBytes (nbits w : Nat) : List Byte :=
  let v := w % 2 ^ nbits
  [BitVec.ofNat 8 v, BitVec.ofNat 8 (v / 2 ^ 8), BitVec.ofNat 8 (v / 2 ^ 16), BitVec.ofNat 8 (v / 2 ^ 24),
    BitVec.ofNat 8 (v / 2 ^ 32)]

/-- What the decoder reads from the bits of a row of the opcode table. -/
def decodeTableWord (nbits w : Nat) : Option Instr :=
  match decode (tableBytes nbits w) with
  | .instr i => some i
  | _ => none

end Sys2Proof
end

