-- ==== Sys2Proof/Config.lean ====
section
/-! DEFINITION. The five parameters the spec leaves open (spec/00_scope.md rule R4, decisions D2, D14, D29), with
their defaults and their ranges. They are fixed for a run (spec/10_state.md rule R35). The machine's State carries
one `Config` that no step changes, so that every rule holds, and can be run, for every value in the range
(notes/assumptions/1.md: DESIGN CHOICE, safe). -/

namespace Sys2Proof

/-- The parameters of R4. Sizes and bounds are natural numbers, since R6 (a) computes every bound test over the
integers; `entry` is the 16-bit value IP takes at reset. -/
structure Config where
  /-- `MEM_SIZE`: valid byte addresses are `0 .. MEM_SIZE-1`. -/
  memSize : Nat := 65536
  /-- `STACK_TOP`: the reset value of SP and FP, and the exclusive upper bound of the stack segment. -/
  stackTop : Nat := memSize - 2
  /-- `STACK_BOTTOM`: the lowest address SP may take. -/
  stackBottom : Nat := 0
  /-- `ENTRY`: the reset value of IP. -/
  entry : Word := 0x0000#16
  /-- `LOAD_BASE`: where the host places the first byte of the image; no step reads it. -/
  loadBase : Nat := 0
  deriving DecidableEq, Repr

/-- The parameters at the defaults R4 gives: 65536, 0xFFFE, 0, 0, 0. -/
def Config.standard : Config := {}

/-- The ranges of R4. `ENTRY` is in range by its type. A model of the spec is claimed for these configurations only
(notes/assumptions/9.md). -/
abbrev Config.Valid (c : Config) : Prop :=
  (2 ≤ c.memSize ∧ c.memSize ≤ 65536) ∧
  (c.stackTop ≤ c.memSize ∧ c.stackTop ≤ 0xFFFF) ∧
  c.stackBottom ≤ c.stackTop ∧
  c.loadBase < c.memSize

end Sys2Proof
end

