-- ==== Sys2Proof/Machine/State.lean ====
section
/-! DEFINITION. The state of the core as plain data (spec/10_state.md), the ways a run ends (rule R31,
spec/60_exceptions.md R250), the two reason types of the host's interface, and reset (R38, R280). The spec's state is
the eight registers, the memory, the run state, the stop record and the cycle counter, and nothing else; `cfg` is
the configuration of R4, which no step changes (notes/assumptions/1.md). -/

namespace Sys2Proof.Machine

/-- The run state (R30). -/
inductive RunState where
  | running
  | halted
  deriving DecidableEq, Repr

/-- Whether an access reads or writes (`dir` of R31). -/
inductive AccessDir where
  | read
  | write
  deriving DecidableEq, Repr

/-- The five ways a run ends (R31, R250, R256). -/
inductive StopReason where
  /-- The normal halt, not a fault: the effect of HLT (R255). -/
  | hltInstruction
  /-- A controlled halt, not a fault: the byte at the address matches no instruction (R254). -/
  | illegalOpcode (addr : Nat) (byte : Byte)
  /-- A fatal fault: the address handed to the accessor, and the kind of access (R251). -/
  | outOfBounds (addr : Nat) (dir : AccessDir) (width : Width)
  /-- A fatal fault of PSH and CAL: SP as the instruction began (R252). -/
  | stackOverflow (ptr : Word)
  /-- A fatal fault of POP and RET: SP (POP) or FP (RET) as the instruction began (R253). -/
  | stackUnderflow (ptr : Word)
  deriving DecidableEq, Repr

/-- The stop record (R31, R257). -/
structure StopRecord where
  reason : StopReason
  /-- `ia`: IP when the halting cycle began. -/
  instrAddr : Word
  /-- The leading byte at `ia`; none only when the fetch of that byte itself was out of bounds. -/
  opcode : Option Byte
  /-- `CYCLES` after the halting cycle. -/
  cycles : Nat
  deriving DecidableEq, Repr

/-- Memory (R33, R50): (address, byte) pairs, addresses strictly rising, no pair listing the byte an unlisted address
reads as (`Memory.wf`). -/
abbrev Memory := List Host.Cell

/-- The whole state (R20, R30 to R33), with the configuration of R4 beside it. -/
structure State where
  ip : Word
  acc : Word
  r1 : Word
  r2 : Word
  r3 : Word
  r4 : Word
  sp : Word
  fp : Word
  /-- Running or Halted (R30). -/
  run : RunState
  /-- Empty while Running, written once, by the cycle that halts (R31). -/
  stop : Option StopRecord
  /-- `CYCLES`: the number of committed cycles, without upper bound (R32). -/
  cycles : Nat
  /-- The bytes at `0 .. cfg.memSize - 1` (R33). -/
  mem : Memory
  /-- The parameters, fixed for a run (R35). -/
  cfg : Config
  deriving DecidableEq, Repr

/-- Why a step has no next state. -/
inductive Fault where
  /-- Raised by `step` alone, on a Halted state: no cycle is enabled there and no step exists (R120, R261). Every
  other event of the machine, the spec's own faults among them, is a next state (notes/assumptions/2.md). Safe: the
  machine does nothing there either. -/
  | halted
  deriving DecidableEq, Repr

/-- Why an instruction has no meaning. -/
inductive Refusal where
  /-- Raised by an arm of `exec` whose instruction has no meaning yet; no arm is such an arm, so nothing raises it.
  Safe: the model would stop where the machine goes on. -/
  | notModelled (mnemonic : String)
  deriving DecidableEq, Repr

/-- Reset (R38, R280, R281): the host's call `run(memory, entryAddress)`. Every register, the run state, the stop
record and the counter take the values of R38 under the parameters `cfg`; memory is what the host supplied, untouched
(R282). -/
def State.launch (cfg : Config) (mem : Memory) : State where
  ip := cfg.entry
  acc := 0
  r1 := 0
  r2 := 0
  r3 := 0
  r4 := 0
  sp := BitVec.ofNat 16 cfg.stackTop
  fp := BitVec.ofNat 16 cfg.stackTop
  run := .running
  stop := none
  cycles := 0
  mem := mem
  cfg := cfg

/-- The machine right after reset with the default parameters of R4 and no image in memory (the situation of R285;
notes/assumptions/3.md, 4.md). -/
def State.reset : State := State.launch Config.standard []

end Sys2Proof.Machine
end

