-- ==== Sys2Proof/Machine/Ops.lean ====
section
/-! DEFINITION. The named operations every instruction is made of: the register file (spec/10_state.md rules R20 to
R25), the memory and its four accessors (spec/20_memory.md rules R50 to R59), the IP advance and the commit of a
cycle (spec/40_cycle_operands.md rule R110), and the taking of a stop (rules R116 to R118), which is this machine's
only exceptional event. There is no return from a stop (R261): the only way out of Halted is a new launch
(`State.launch`).

An operation that may `raise` answers in `Except StopReason`. The pre-cycle state is kept by `runCycle`, so that a
raise drops everything the cycle wrote (R116). -/

namespace Sys2Proof.Machine

/-! ### Memory as data -/

/-- What an address that no pair lists reads as: the zero byte of the loader convention of R38
(DESIGN CHOICE, unsafe: notes/assumptions/3.md). -/
def Memory.unlisted : Byte := 0x00

/-- The canonical form: addresses strictly rising, no pair equal to what an unlisted address reads as. -/
abbrev Memory.wf (m : Memory) : Prop :=
  List.Pairwise (fun c d => c.1 < d.1) m ∧ ∀ c ∈ m, c.2 ≠ Memory.unlisted

/-- The byte `mem[a]` (R33). -/
def Memory.get : Memory → Nat → Byte
  | [], _ => Memory.unlisted
  | (k, v) :: rest, a => if k = a then v else Memory.get rest a

/-- `mem[a] <- b`, keeping the canonical form: writing what an unlisted address reads as removes the pair. -/
def Memory.set : Memory → Nat → Byte → Memory
  | [], a, b => if b = Memory.unlisted then [] else [(a, b)]
  | (k, v) :: rest, a, b =>
    if k < a then (k, v) :: Memory.set rest a b
    else if k = a then (if b = Memory.unlisted then rest else (a, b) :: rest)
    else (if b = Memory.unlisted then (k, v) :: rest else (a, b) :: (k, v) :: rest)

/-- `mem[a] <- v[15:8]`, `mem[a+1] <- v[7:0]` (R52, R56). -/
def Memory.setWord (m : Memory) (a : Nat) (v : Word) : Memory :=
  Memory.set (Memory.set m a (hiByte v)) (a + 1) (loByte v)

/-- The byte of the state's memory at an address (R33). -/
def State.byteAt (s : State) (a : Nat) : Byte := Memory.get s.mem a

/-- The big-endian word at an address (R52): `mem[a] * 256 + mem[a+1]`. -/
def State.wordAt (s : State) (a : Nat) : Word := wordOfBytes (s.byteAt a) (s.byteAt (a + 1))

/-! ### The four accessors (R51)

Addresses are natural numbers and are never reduced (R57); the negative addresses of R53 to R56 cannot be formed by
any rule (R251; notes/assumptions/5.md). -/

/-- `MemRead(a, 1)` (R53). -/
def readByte (a : Nat) (s : State) : Except StopReason Byte :=
  if a < s.cfg.memSize then .ok (s.byteAt a) else .error (.outOfBounds a .read .byte)

/-- `MemRead(a, 2)` (R54): both bytes must be in range, and the address reported is `a`. -/
def readWord (a : Nat) (s : State) : Except StopReason Word :=
  if a + 1 < s.cfg.memSize then .ok (s.wordAt a) else .error (.outOfBounds a .read .word)

/-- `MemWrite(a, 1, v)` (R55). No instruction uses it; it is the host loader's (R12, decision D30). -/
def writeByte (a : Nat) (v : Byte) (s : State) : Except StopReason State :=
  if a < s.cfg.memSize then .ok { s with mem := Memory.set s.mem a v } else .error (.outOfBounds a .write .byte)

/-- `MemWrite(a, 2, v)` (R56): out of range, neither byte is written. -/
def writeWord (a : Nat) (v : Word) (s : State) : Except StopReason State :=
  if a + 1 < s.cfg.memSize then .ok { s with mem := Memory.setWord s.mem a v }
  else .error (.outOfBounds a .write .word)

/-! ### The register file (R20, R23) -/

/-- `x[r]`. -/
def State.get (s : State) : Reg → Word
  | .ip => s.ip
  | .acc => s.acc
  | .r1 => s.r1
  | .r2 => s.r2
  | .r3 => s.r3
  | .r4 => s.r4
  | .sp => s.sp
  | .fp => s.fp

/-- `x[r] <- v`: no register is hard-wired, read-only or narrower than 16 bits. -/
def State.set (s : State) (r : Reg) (v : Word) : State :=
  match r with
  | .ip => { s with ip := v }
  | .acc => { s with acc := v }
  | .r1 => { s with r1 := v }
  | .r2 => { s with r2 := v }
  | .r3 => { s with r3 := v }
  | .r4 => { s with r4 := v }
  | .sp => { s with sp := v }
  | .fp => { s with fp := v }

/-! ### The cycle (R110) -/

/-- The advance: `x[IP] <- u16(ia + len)`; the register wraps modulo 65536 (R25). -/
def State.advance (s : State) (len : Nat) : State := { s with ip := s.ip + BitVec.ofNat 16 len }

/-- The commit of a cycle that applied an effect: `CYCLES <- CYCLES + 1` (R32). -/
def State.commit (s : State) : State := { s with cycles := s.cycles + 1 }

/-- `run <- Halted; stop <- {reason, ia, opcode, CYCLES}`: nothing else changes, nothing is saved anywhere and control
goes nowhere (R30, R31, R260). -/
def State.halt (s : State) (reason : StopReason) (ia : Word) (opcode : Option Byte) : State :=
  { s with run := .halted, stop := some ⟨reason, ia, opcode, s.cycles⟩ }

/-- Taking a stop other than HLT, from the state in which the cycle began: registers (IP included), memory and
`CYCLES` keep their values (R116 for a fault, R117 for IllegalOpcode). -/
def State.takeStop (s : State) (reason : StopReason) (opcode : Option Byte) : State := s.halt reason s.ip opcode

/-- One cycle after decode (R110): advance IP, apply the effect, commit; a raise of the effect stops the machine in
the state before the cycle (R116). The leading byte in the record is the instruction's own. -/
def runCycle (i : Instr) (effect : State → Except StopReason State) (s : State) :
    Host.Outcome State Fault Refusal :=
  match effect (s.advance (instrLength i)) with
  | .ok t => .next t.commit
  | .error reason => .next (s.takeStop reason (some (leadByte i)))

/-- One cycle whose effect asks for the halt (R110, R118): the cycle commits, then the machine halts with
`{HltInstruction, ia, b0, CYCLES}`, `CYCLES` counting this cycle. -/
def haltCycle (i : Instr) (s : State) : Host.Outcome State Fault Refusal :=
  .next ((s.advance (instrLength i)).commit.halt .hltInstruction s.ip (some (leadByte i)))

end Sys2Proof.Machine
end

