-- ==== Sys2Proof/Machine/Operands.lean ====
section
/-! DEFINITION. The operand forms (spec/30_encoding.md rule R83): a source operand has one of four modes, a destination
one of three, and each becomes a value or a location at execution time, after the IP advance
(spec/40_cycle_operands.md rules R112 to R114). -/

namespace Sys2Proof.Machine

/-- A source operand: its mode with its payload. -/
inductive Source where
  | lit (imm : Word)
  | reg (r : Reg)
  | dir (addr : Word)
  | ind (r : Reg)
  deriving DecidableEq, Repr

/-- A destination operand; there is no literal destination (R85). -/
inductive Dest where
  | reg (r : Reg)
  | dir (addr : Word)
  | ind (r : Reg)
  deriving DecidableEq, Repr

/-- `Src(m, p)` (R113): the operand's value, or OutOfBounds. It changes no state. -/
def src (a : Source) (s : State) : Except StopReason Word :=
  match a with
  | .lit imm => .ok imm
  | .reg r => .ok (s.get r)
  | .dir addr => readWord addr.toNat s
  | .ind r => readWord (s.get r).toNat s

/-- `Dst(m, p, v)` (R114): the write to the location the operand names when the write happens, or OutOfBounds. -/
def dst (b : Dest) (v : Word) (s : State) : Except StopReason State :=
  match b with
  | .reg r => .ok (s.set r v)
  | .dir addr => writeWord addr.toNat v s
  | .ind r => writeWord (s.get r).toNat v s

end Sys2Proof.Machine
end

