-- ==== Sys2Proof/Machine/Add.lean ====
section
/-! DEFINITION. ADD, 16-bit addition into ACC: sixteen forms over one effect (spec/42_add.md rules R160 to R177). -/

namespace Sys2Proof.Machine

/-- The effect of ADD (R160): both operands are resolved, A first, before ACC is written. -/
def addEffect (a b : Source) (s : State) : Except StopReason State := do
  let x ← src a s
  let y ← src b s
  pure (s.set .acc (addWords x y))

/-- `ADD #immA, #immB` (R162). -/
def execAddLL (immA : Word) (immB : Word) (s : State) : Host.Outcome State Fault Refusal :=
  runCycle (.addLL immA immB) (addEffect (.lit immA) (.lit immB)) s

/-- `ADD #immA, Rb` (R163). -/
def execAddLR (immA : Word) (rb : Reg) (s : State) : Host.Outcome State Fault Refusal :=
  runCycle (.addLR immA rb) (addEffect (.lit immA) (.reg rb)) s

/-- `ADD #immA, [addrB]` (R164). -/
def execAddLD (immA : Word) (addrB : Word) (s : State) : Host.Outcome State Fault Refusal :=
  runCycle (.addLD immA addrB) (addEffect (.lit immA) (.dir addrB)) s

/-- `ADD #immA, [Rb]` (R165). -/
def execAddLI (immA : Word) (rb : Reg) (s : State) : Host.Outcome State Fault Refusal :=
  runCycle (.addLI immA rb) (addEffect (.lit immA) (.ind rb)) s

/-- `ADD Ra, #immB` (R166). -/
def execAddRL (ra : Reg) (immB : Word) (s : State) : Host.Outcome State Fault Refusal :=
  runCycle (.addRL ra immB) (addEffect (.reg ra) (.lit immB)) s

/-- `ADD Ra, Rb` (R167). -/
def execAddRR (ra : Reg) (rb : Reg) (s : State) : Host.Outcome State Fault Refusal :=
  runCycle (.addRR ra rb) (addEffect (.reg ra) (.reg rb)) s

/-- `ADD Ra, [addrB]` (R168). -/
def execAddRD (ra : Reg) (addrB : Word) (s : State) : Host.Outcome State Fault Refusal :=
  runCycle (.addRD ra addrB) (addEffect (.reg ra) (.dir addrB)) s

/-- `ADD Ra, [Rb]` (R169). -/
def execAddRI (ra : Reg) (rb : Reg) (s : State) : Host.Outcome State Fault Refusal :=
  runCycle (.addRI ra rb) (addEffect (.reg ra) (.ind rb)) s

/-- `ADD [addrA], #immB` (R170). -/
def execAddDL (addrA : Word) (immB : Word) (s : State) : Host.Outcome State Fault Refusal :=
  runCycle (.addDL addrA immB) (addEffect (.dir addrA) (.lit immB)) s

/-- `ADD [addrA], Rb` (R171). -/
def execAddDR (addrA : Word) (rb : Reg) (s : State) : Host.Outcome State Fault Refusal :=
  runCycle (.addDR addrA rb) (addEffect (.dir addrA) (.reg rb)) s

/-- `ADD [addrA], [addrB]` (R172). -/
def execAddDD (addrA : Word) (addrB : Word) (s : State) : Host.Outcome State Fault Refusal :=
  runCycle (.addDD addrA addrB) (addEffect (.dir addrA) (.dir addrB)) s

/-- `ADD [addrA], [Rb]` (R173). -/
def execAddDI (addrA : Word) (rb : Reg) (s : State) : Host.Outcome State Fault Refusal :=
  runCycle (.addDI addrA rb) (addEffect (.dir addrA) (.ind rb)) s

/-- `ADD [Ra], #immB` (R174). -/
def execAddIL (ra : Reg) (immB : Word) (s : State) : Host.Outcome State Fault Refusal :=
  runCycle (.addIL ra immB) (addEffect (.ind ra) (.lit immB)) s

/-- `ADD [Ra], Rb` (R175). -/
def execAddIR (ra : Reg) (rb : Reg) (s : State) : Host.Outcome State Fault Refusal :=
  runCycle (.addIR ra rb) (addEffect (.ind ra) (.reg rb)) s

/-- `ADD [Ra], [addrB]` (R176). -/
def execAddID (ra : Reg) (addrB : Word) (s : State) : Host.Outcome State Fault Refusal :=
  runCycle (.addID ra addrB) (addEffect (.ind ra) (.dir addrB)) s

/-- `ADD [Ra], [Rb]` (R177). -/
def execAddII (ra : Reg) (rb : Reg) (s : State) : Host.Outcome State Fault Refusal :=
  runCycle (.addII ra rb) (addEffect (.ind ra) (.ind rb)) s

end Sys2Proof.Machine
end

