-- ==== Sys2Proof/Machine/Frame.lean ====
section
/-! DEFINITION. CAL and RET, stack frames: five forms over two effects (spec/45_cal_ret.md rules R220 to R228). A frame
is six words, 12 bytes, at FP: the argument count, the return address, R4, R3, R2, R1 (R220). -/

namespace Sys2Proof.Machine

/-- The argument count CAL saves: `u16(FP - SP) >> 1` (R221). -/
def argCount (s : State) : Word := (s.fp - s.sp) >>> 1

/-- `CallTo(t)` (R222): one integer test for the whole frame before any write (`SP - 12 < STACK_BOTTOM`, written
without a negative number), six writes in the order of the rule, then SP, FP and IP. The return address is IP, which
holds `next`. -/
def callTo (target : Word) (s : State) : Except StopReason State :=
  if s.sp.toNat < s.cfg.stackBottom + 12 then .error (.stackOverflow s.sp)
  else do
    let t1 ← writeWord (s.sp.toNat - 2) s.r1 s
    let t2 ← writeWord (s.sp.toNat - 4) s.r2 t1
    let t3 ← writeWord (s.sp.toNat - 6) s.r3 t2
    let t4 ← writeWord (s.sp.toNat - 8) s.r4 t3
    let t5 ← writeWord (s.sp.toNat - 10) s.ip t4
    let t6 ← writeWord (s.sp.toNat - 12) (argCount s) t5
    pure (((t6.set .sp (s.sp - 12)).set .fp (s.sp - 12)).set .ip target)

/-- The effect of CAL (R222 to R226): the target is resolved before SP and FP move and before the frame is written. -/
def calEffect (a : Source) (s : State) : Except StopReason State := do
  let target ← src a s
  callTo target s

/-- The effect of RET (R228): the frame is the one at FP, wherever SP is. First test, six reads, second test on the
integer `newSP = FP + 12 + 2n`, and then the seven registers. Memory does not change. -/
def retEffect (s : State) : Except StopReason State :=
  if s.cfg.stackTop < s.fp.toNat + 12 then .error (.stackUnderflow s.fp)
  else do
    let n ← readWord s.fp.toNat s
    let ra ← readWord (s.fp.toNat + 2) s
    let v4 ← readWord (s.fp.toNat + 4) s
    let v3 ← readWord (s.fp.toNat + 6) s
    let v2 ← readWord (s.fp.toNat + 8) s
    let v1 ← readWord (s.fp.toNat + 10) s
    let newSP := s.fp.toNat + 12 + 2 * n.toNat
    if s.cfg.stackTop < newSP then .error (.stackUnderflow s.fp)
    else
      pure (((((((s.set .r1 v1).set .r2 v2).set .r3 v3).set .r4 v4).set .ip ra).set .sp
        (BitVec.ofNat 16 newSP)).set .fp (BitVec.ofNat 16 newSP))

/-- `CAL #immA` (R223). -/
def execCalL (immA : Word) (s : State) : Host.Outcome State Fault Refusal :=
  runCycle (.calL immA) (calEffect (.lit immA)) s

/-- `CAL Ra` (R224). -/
def execCalR (ra : Reg) (s : State) : Host.Outcome State Fault Refusal :=
  runCycle (.calR ra) (calEffect (.reg ra)) s

/-- `CAL [addrA]` (R225). -/
def execCalD (addrA : Word) (s : State) : Host.Outcome State Fault Refusal :=
  runCycle (.calD addrA) (calEffect (.dir addrA)) s

/-- `CAL [Ra]` (R226). -/
def execCalI (ra : Reg) (s : State) : Host.Outcome State Fault Refusal :=
  runCycle (.calI ra) (calEffect (.ind ra)) s

/-- `RET` (R228). -/
def execRet (s : State) : Host.Outcome State Fault Refusal :=
  runCycle .ret retEffect s

end Sys2Proof.Machine
end

