-- ==== Sys2Proof/Machine/Hlt.lean ====
section
/-! DEFINITION. HLT, the normal halt (spec/46_hlt.md rule R240). -/

namespace Sys2Proof.Machine

/-- `HLT` (R240): no effect but the halt; the cycle is committed and counted. -/
def execHlt (s : State) : Host.Outcome State Fault Refusal := haltCycle .hlt s

end Sys2Proof.Machine
end

