-- ==== Sys2Proof/Machine/Jne.lean ====
section
/-! DEFINITION. JNE, conditional branch: sixteen forms over one effect (spec/43_jne.md rules R180 to R197). -/

namespace Sys2Proof.Machine

/-- The effect of JNE (R180): target and comparison value are both resolved, the target first, whether or not the
branch is taken; the branch is taken when ACC differs from the value, and else IP keeps `next`. -/
def jneEffect (a b : Source) (s : State) : Except StopReason State := do
  let target ← src a s
  let value ← src b s
  pure (if differs s.acc value then s.set .ip target else s)

/-- `JNE #immA, #immB` (R182). -/
def execJneLL (immA : Word) (immB : Word) (s : State) : Host.Outcome State Fault Refusal :=
  runCycle (.jneLL immA immB) (jneEffect (.lit immA) (.lit immB)) s

/-- `JNE #immA, Rb` (R183). -/
def execJneLR (immA : Word) (rb : Reg) (s : State) : Host.Outcome State Fault Refusal :=
  runCycle (.jneLR immA rb) (jneEffect (.lit immA) (.reg rb)) s

/-- `JNE #immA, [addrB]` (R184). -/
def execJneLD (immA : Word) (addrB : Word) (s : State) : Host.Outcome State Fault Refusal :=
  runCycle (.jneLD immA addrB) (jneEffect (.lit immA) (.dir addrB)) s

/-- `JNE #immA, [Rb]` (R185). -/
def execJneLI (immA : Word) (rb : Reg) (s : State) : Host.Outcome State Fault Refusal :=
  runCycle (.jneLI immA rb) (jneEffect (.lit immA) (.ind rb)) s

/-- `JNE Ra, #immB` (R186). -/
def execJneRL (ra : Reg) (immB : Word) (s : State) : Host.Outcome State Fault Refusal :=
  runCycle (.jneRL ra immB) (jneEffect (.reg ra) (.lit immB)) s

/-- `JNE Ra, Rb` (R187). -/
def execJneRR (ra : Reg) (rb : Reg) (s : State) : Host.Outcome State Fault Refusal :=
  runCycle (.jneRR ra rb) (jneEffect (.reg ra) (.reg rb)) s

/-- `JNE Ra, [addrB]` (R188). -/
def execJneRD (ra : Reg) (addrB : Word) (s : State) : Host.Outcome State Fault Refusal :=
  runCycle (.jneRD ra addrB) (jneEffect (.reg ra) (.dir addrB)) s

/-- `JNE Ra, [Rb]` (R189). -/
def execJneRI (ra : Reg) (rb : Reg) (s : State) : Host.Outcome State Fault Refusal :=
  runCycle (.jneRI ra rb) (jneEffect (.reg ra) (.ind rb)) s

/-- `JNE [addrA], #immB` (R190). -/
def execJneDL (addrA : Word) (immB : Word) (s : State) : Host.Outcome State Fault Refusal :=
  runCycle (.jneDL addrA immB) (jneEffect (.dir addrA) (.lit immB)) s

/-- `JNE [addrA], Rb` (R191). -/
def execJneDR (addrA : Word) (rb : Reg) (s : State) : Host.Outcome State Fault Refusal :=
  runCycle (.jneDR addrA rb) (jneEffect (.dir addrA) (.reg rb)) s

/-- `JNE [addrA], [addrB]` (R192). -/
def execJneDD (addrA : Word) (addrB : Word) (s : State) : Host.Outcome State Fault Refusal :=
  runCycle (.jneDD addrA addrB) (jneEffect (.dir addrA) (.dir addrB)) s

/-- `JNE [addrA], [Rb]` (R193). -/
def execJneDI (addrA : Word) (rb : Reg) (s : State) : Host.Outcome State Fault Refusal :=
  runCycle (.jneDI addrA rb) (jneEffect (.dir addrA) (.ind rb)) s

/-- `JNE [Ra], #immB` (R194). -/
def execJneIL (ra : Reg) (immB : Word) (s : State) : Host.Outcome State Fault Refusal :=
  runCycle (.jneIL ra immB) (jneEffect (.ind ra) (.lit immB)) s

/-- `JNE [Ra], Rb` (R195). -/
def execJneIR (ra : Reg) (rb : Reg) (s : State) : Host.Outcome State Fault Refusal :=
  runCycle (.jneIR ra rb) (jneEffect (.ind ra) (.reg rb)) s

/-- `JNE [Ra], [addrB]` (R196). -/
def execJneID (ra : Reg) (addrB : Word) (s : State) : Host.Outcome State Fault Refusal :=
  runCycle (.jneID ra addrB) (jneEffect (.ind ra) (.dir addrB)) s

/-- `JNE [Ra], [Rb]` (R197). -/
def execJneII (ra : Reg) (rb : Reg) (s : State) : Host.Outcome State Fault Refusal :=
  runCycle (.jneII ra rb) (jneEffect (.ind ra) (.ind rb)) s

end Sys2Proof.Machine
end

