-- ==== Sys2Proof/Machine/Mov.lean ====
section
/-! DEFINITION. MOV, data movement: twelve forms over one effect (spec/41_mov.md rules R140 to R152). -/

namespace Sys2Proof.Machine

/-- The effect of MOV (R140): the source is read whole, then the destination is written. No stack bound is tested. -/
def movEffect (a : Source) (b : Dest) (s : State) : Except StopReason State := do
  let v ← src a s
  dst b v s

/-- `MOV #immA, Rb` (R141). -/
def execMovLR (immA : Word) (rb : Reg) (s : State) : Host.Outcome State Fault Refusal :=
  runCycle (.movLR immA rb) (movEffect (.lit immA) (.reg rb)) s

/-- `MOV #immA, [addrB]` (R142). -/
def execMovLD (immA : Word) (addrB : Word) (s : State) : Host.Outcome State Fault Refusal :=
  runCycle (.movLD immA addrB) (movEffect (.lit immA) (.dir addrB)) s

/-- `MOV #immA, [Rb]` (R143). -/
def execMovLI (immA : Word) (rb : Reg) (s : State) : Host.Outcome State Fault Refusal :=
  runCycle (.movLI immA rb) (movEffect (.lit immA) (.ind rb)) s

/-- `MOV Ra, Rb` (R144). -/
def execMovRR (ra : Reg) (rb : Reg) (s : State) : Host.Outcome State Fault Refusal :=
  runCycle (.movRR ra rb) (movEffect (.reg ra) (.reg rb)) s

/-- `MOV Ra, [addrB]` (R145). -/
def execMovRD (ra : Reg) (addrB : Word) (s : State) : Host.Outcome State Fault Refusal :=
  runCycle (.movRD ra addrB) (movEffect (.reg ra) (.dir addrB)) s

/-- `MOV Ra, [Rb]` (R146). -/
def execMovRI (ra : Reg) (rb : Reg) (s : State) : Host.Outcome State Fault Refusal :=
  runCycle (.movRI ra rb) (movEffect (.reg ra) (.ind rb)) s

/-- `MOV [addrA], Rb` (R147). -/
def execMovDR (addrA : Word) (rb : Reg) (s : State) : Host.Outcome State Fault Refusal :=
  runCycle (.movDR addrA rb) (movEffect (.dir addrA) (.reg rb)) s

/-- `MOV [addrA], [addrB]` (R148). -/
def execMovDD (addrA : Word) (addrB : Word) (s : State) : Host.Outcome State Fault Refusal :=
  runCycle (.movDD addrA addrB) (movEffect (.dir addrA) (.dir addrB)) s

/-- `MOV [addrA], [Rb]` (R149). -/
def execMovDI (addrA : Word) (rb : Reg) (s : State) : Host.Outcome State Fault Refusal :=
  runCycle (.movDI addrA rb) (movEffect (.dir addrA) (.ind rb)) s

/-- `MOV [Ra], Rb` (R150). -/
def execMovIR (ra : Reg) (rb : Reg) (s : State) : Host.Outcome State Fault Refusal :=
  runCycle (.movIR ra rb) (movEffect (.ind ra) (.reg rb)) s

/-- `MOV [Ra], [addrB]` (R151). -/
def execMovID (ra : Reg) (addrB : Word) (s : State) : Host.Outcome State Fault Refusal :=
  runCycle (.movID ra addrB) (movEffect (.ind ra) (.dir addrB)) s

/-- `MOV [Ra], [Rb]` (R152). -/
def execMovII (ra : Reg) (rb : Reg) (s : State) : Host.Outcome State Fault Refusal :=
  runCycle (.movII ra rb) (movEffect (.ind ra) (.ind rb)) s

end Sys2Proof.Machine
end

