-- ==== Sys2Proof/Machine/Stack.lean ====
section
/-! DEFINITION. PSH and POP, the stack: seven forms over two effects (spec/44_psh_pop.md rules R200 to R208). -/

namespace Sys2Proof.Machine

/-- `Push(v)` (R200): the overflow test is on integers, before any write (`SP - 2 < STACK_BOTTOM`, written without a
negative number); the upper end of the segment is not tested. -/
def push (v : Word) (s : State) : Except StopReason State :=
  if s.sp.toNat < s.cfg.stackBottom + 2 then .error (.stackOverflow s.sp)
  else do
    let t ← writeWord (s.sp.toNat - 2) v s
    pure (t.set .sp (s.sp - 2))

/-- The effect of PSH (R202 to R205): the operand is resolved before SP moves. -/
def pshEffect (a : Source) (s : State) : Except StopReason State := do
  let v ← src a s
  push v s

/-- The effect of POP (R201, R206 to R208): test, read the word at SP, write it to the destination, and then add 2 to
SP as it is after that write (decision D23). -/
def popEffect (b : Dest) (s : State) : Except StopReason State :=
  if s.cfg.stackTop < s.sp.toNat + 2 then .error (.stackUnderflow s.sp)
  else do
    let v ← readWord s.sp.toNat s
    let t ← dst b v s
    pure (t.set .sp (t.sp + 2))

/-- `PSH #immA` (R202). -/
def execPshL (immA : Word) (s : State) : Host.Outcome State Fault Refusal :=
  runCycle (.pshL immA) (pshEffect (.lit immA)) s

/-- `PSH Ra` (R203). -/
def execPshR (ra : Reg) (s : State) : Host.Outcome State Fault Refusal :=
  runCycle (.pshR ra) (pshEffect (.reg ra)) s

/-- `PSH [addrA]` (R204). -/
def execPshD (addrA : Word) (s : State) : Host.Outcome State Fault Refusal :=
  runCycle (.pshD addrA) (pshEffect (.dir addrA)) s

/-- `PSH [Ra]` (R205). -/
def execPshI (ra : Reg) (s : State) : Host.Outcome State Fault Refusal :=
  runCycle (.pshI ra) (pshEffect (.ind ra)) s

/-- `POP Ra` (R206). -/
def execPopR (ra : Reg) (s : State) : Host.Outcome State Fault Refusal :=
  runCycle (.popR ra) (popEffect (.reg ra)) s

/-- `POP [addrA]` (R207). -/
def execPopD (addrA : Word) (s : State) : Host.Outcome State Fault Refusal :=
  runCycle (.popD addrA) (popEffect (.dir addrA)) s

/-- `POP [Ra]` (R208). -/
def execPopI (ra : Reg) (s : State) : Host.Outcome State Fault Refusal :=
  runCycle (.popI ra) (popEffect (.ind ra)) s

end Sys2Proof.Machine
end

