-- ==== Sys2Proof/Machine/Dispatch.lean ====
section
/-! DEFINITION. Dispatch (spec/40_cycle_operands.md rule R119): each of the 57 instructions has exactly one meaning.
`exec i s` is the part of a cycle after decode, from the state in which the cycle began: advance, effect, commit, or
the stop the effect raises (rule R110). -/

namespace Sys2Proof.Machine

def exec (i : Instr) (s : State) : Host.Outcome State Fault Refusal :=
  match i with
  | .movLR immA rb => Sys2Proof.Machine.execMovLR immA rb s
  | .movLD immA addrB => Sys2Proof.Machine.execMovLD immA addrB s
  | .movLI immA rb => Sys2Proof.Machine.execMovLI immA rb s
  | .movRR ra rb => Sys2Proof.Machine.execMovRR ra rb s
  | .movRD ra addrB => Sys2Proof.Machine.execMovRD ra addrB s
  | .movRI ra rb => Sys2Proof.Machine.execMovRI ra rb s
  | .movDR addrA rb => Sys2Proof.Machine.execMovDR addrA rb s
  | .movDD addrA addrB => Sys2Proof.Machine.execMovDD addrA addrB s
  | .movDI addrA rb => Sys2Proof.Machine.execMovDI addrA rb s
  | .movIR ra rb => Sys2Proof.Machine.execMovIR ra rb s
  | .movID ra addrB => Sys2Proof.Machine.execMovID ra addrB s
  | .movII ra rb => Sys2Proof.Machine.execMovII ra rb s
  | .addLL immA immB => Sys2Proof.Machine.execAddLL immA immB s
  | .addLR immA rb => Sys2Proof.Machine.execAddLR immA rb s
  | .addLD immA addrB => Sys2Proof.Machine.execAddLD immA addrB s
  | .addLI immA rb => Sys2Proof.Machine.execAddLI immA rb s
  | .addRL ra immB => Sys2Proof.Machine.execAddRL ra immB s
  | .addRR ra rb => Sys2Proof.Machine.execAddRR ra rb s
  | .addRD ra addrB => Sys2Proof.Machine.execAddRD ra addrB s
  | .addRI ra rb => Sys2Proof.Machine.execAddRI ra rb s
  | .addDL addrA immB => Sys2Proof.Machine.execAddDL addrA immB s
  | .addDR addrA rb => Sys2Proof.Machine.execAddDR addrA rb s
  | .addDD addrA addrB => Sys2Proof.Machine.execAddDD addrA addrB s
  | .addDI addrA rb => Sys2Proof.Machine.execAddDI addrA rb s
  | .addIL ra immB => Sys2Proof.Machine.execAddIL ra immB s
  | .addIR ra rb => Sys2Proof.Machine.execAddIR ra rb s
  | .addID ra addrB => Sys2Proof.Machine.execAddID ra addrB s
  | .addII ra rb => Sys2Proof.Machine.execAddII ra rb s
  | .jneLL immA immB => Sys2Proof.Machine.execJneLL immA immB s
  | .jneLR immA rb => Sys2Proof.Machine.execJneLR immA rb s
  | .jneLD immA addrB => Sys2Proof.Machine.execJneLD immA addrB s
  | .jneLI immA rb => Sys2Proof.Machine.execJneLI immA rb s
  | .jneRL ra immB => Sys2Proof.Machine.execJneRL ra immB s
  | .jneRR ra rb => Sys2Proof.Machine.execJneRR ra rb s
  | .jneRD ra addrB => Sys2Proof.Machine.execJneRD ra addrB s
  | .jneRI ra rb => Sys2Proof.Machine.execJneRI ra rb s
  | .jneDL addrA immB => Sys2Proof.Machine.execJneDL addrA immB s
  | .jneDR addrA rb => Sys2Proof.Machine.execJneDR addrA rb s
  | .jneDD addrA addrB => Sys2Proof.Machine.execJneDD addrA addrB s
  | .jneDI addrA rb => Sys2Proof.Machine.execJneDI addrA rb s
  | .jneIL ra immB => Sys2Proof.Machine.execJneIL ra immB s
  | .jneIR ra rb => Sys2Proof.Machine.execJneIR ra rb s
  | .jneID ra addrB => Sys2Proof.Machine.execJneID ra addrB s
  | .jneII ra rb => Sys2Proof.Machine.execJneII ra rb s
  | .pshL immA => Sys2Proof.Machine.execPshL immA s
  | .pshR ra => Sys2Proof.Machine.execPshR ra s
  | .pshD addrA => Sys2Proof.Machine.execPshD addrA s
  | .pshI ra => Sys2Proof.Machine.execPshI ra s
  | .popR ra => Sys2Proof.Machine.execPopR ra s
  | .popD addrA => Sys2Proof.Machine.execPopD addrA s
  | .popI ra => Sys2Proof.Machine.execPopI ra s
  | .calL immA => Sys2Proof.Machine.execCalL immA s
  | .calR ra => Sys2Proof.Machine.execCalR ra s
  | .calD addrA => Sys2Proof.Machine.execCalD addrA s
  | .calI ra => Sys2Proof.Machine.execCalI ra s
  | .ret => Sys2Proof.Machine.execRet s
  | .hlt => Sys2Proof.Machine.execHlt s

end Sys2Proof.Machine
end

