-- ==== Sys2Proof/Machine/Fetch.lean ====
section
/-! DEFINITION. Fetch: the decoder at IP (spec/30_encoding.md rule R88) over the bytes memory holds from IP on, the stop
a failed decode takes (spec/40_cycle_operands.md rules R116, R117), and the placing of an instruction at IP that the
host's `withFetchWord` stands for. -/

namespace Sys2Proof.Machine

/-- The bytes memory holds at `a, a + 1, …`, as many as exist, `n` at most. Addresses do not wrap (R57): the bytes end
where memory ends. -/
def fetchWindow (s : State) (a : Nat) : Nat → List Byte
  | 0 => []
  | n + 1 =>
    match readByte a s with
    | .ok b => b :: fetchWindow s (a + 1) n
    | .error _ => []

/-- `Decode(ia)` with `ia` = IP (R88): an instruction, or the stop the decoder signals or raises, its offset turned
into the address `ia + off`, an integer sum. Five bytes are the longest instruction (R80). It changes nothing
(R93). -/
def fetch (s : State) : Except StopReason Instr :=
  match decode (fetchWindow s s.ip.toNat 5) with
  | .instr i => .ok i
  | .illegal off b => .error (.illegalOpcode (s.ip.toNat + off) b)
  | .cut off w => .error (.outOfBounds (s.ip.toNat + off) .read w)

/-- The leading byte at IP for the stop record: none only when it lies outside memory (R31). -/
def fetchedLead (s : State) : Option Byte := (fetchWindow s s.ip.toNat 5).head?

/-- A cycle whose decode fails: the stop is taken before the advance, and nothing else changes (R116, R117). -/
def decodeStop (reason : StopReason) (s : State) : Host.Outcome State Fault Refusal :=
  .next (s.takeStop reason (fetchedLead s))

/-- Store bytes at `a, a + 1, …` as the host's loader does; a byte that would fall outside memory is not stored. -/
def placeBytes (a : Nat) : List Byte → State → State
  | [], s => s
  | b :: bs, s =>
    match writeByte a b s with
    | .ok t => placeBytes (a + 1) bs t
    | .error _ => s

/-- The bytes of a row of the opcode table, placed where the next cycle decodes: at IP. -/
def placeTableWord (nbits w : Nat) (s : State) : State := placeBytes s.ip.toNat (tableBytes nbits w) s

end Sys2Proof.Machine
end

