-- ==== Sys2Proof/Machine/Step.lean ====
section
/-! DEFINITION. One cycle of the core (spec/40_cycle_operands.md rules R110, R120), and the host's placing of an
instruction where the next cycle fetches it. -/

namespace Sys2Proof.Machine

/-- One cycle (R110), enabled only when Running; a Halted core has no step (R120). The machine is total: while
Running, a cycle always yields a next state (R293). -/
def step (s : State) : Host.Outcome State Fault Refusal :=
  match s.run with
  | .halted => .fault .halted
  | .running =>
    match fetch s with
    | .ok i => exec i s
    | .error reason => decodeStop reason s

/-- `s` with the bytes of an instruction (bits numbered as spec/opcode_table.json numbers them, zero above `nbits`)
stored from the address in IP on: the host's load of a program (R268, R283; notes/assumptions/4.md). Nothing but
memory changes. -/
def State.withFetchWord (s : State) (nbits w : Nat) : State := placeTableWord nbits w s

end Sys2Proof.Machine
end

