-- ==== Sys2Proof/Machine/HostMoves.lean ====
section
/-! DEFINITION. What the host may do (spec/60_exceptions.md rules R268 to R270, spec/70_reset_and_hazards.md rules R281
to R283): load an image and start the run, drive cycles or cease to, and read the outcome. Nothing here is a move of
the core, and the host has no move that writes registers or memory during a run (R269). -/

namespace Sys2Proof.Machine

/-- Load the bytes of an image at `a, a + 1, …` through `writeByte` (R12, R268); an image that does not fit in memory
is the loader's error (R283). -/
def loadImage (a : Nat) : List Byte → State → Except StopReason State
  | [], s => .ok s
  | b :: bs, s => do
    let t ← writeByte a b s
    loadImage (a + 1) bs t

/-- `run(memory, entryAddress)` before its first cycle (R281): the image at `LOAD_BASE` in a memory that reads zero
elsewhere (the loader convention of R38, the model's choice: notes/assumptions/3.md), and reset. -/
def boot (cfg : Config) (image : List Byte) : Except StopReason State :=
  loadImage cfg.loadBase image (State.launch cfg [])

/-- Drive at most `n` cycles; a state with no step stays as it is (R120, R269, R293). -/
def drive : Nat → State → State
  | 0, s => s
  | n + 1, s =>
    match step s with
    | .next t => drive n t
    | .fault _ => s
    | .refused _ => s

/-- What the host receives when the run is over (R270): the eight registers in the order of their numbers, and the
stop record; none while the core is Running. -/
def finalState (s : State) : Option (List Word × StopRecord) :=
  s.stop.map fun record => ([s.ip, s.acc, s.r1, s.r2, s.r3, s.r4, s.sp, s.fp], record)

end Sys2Proof.Machine
end

