-- ==== Sys2Proof/WellFormed.lean ====
section
/-! DEFINITION. What makes a string of bytes an instruction, written from the field structure of the encoding
(spec/30_encoding.md rules R81 to R86, R89, R90) and not from the opcode map (R92), which the decoder is written from:
the two can be proved to agree. A term of `Instr` needs no check of its own: its operands are a `Reg` or a `Word`, so
every term of it is well formed (notes/assumptions/8.md). What can be ill formed is an `Image`, the bytes that claim
to be an instruction. -/

namespace Sys2Proof

/-- The eight operations (R82). -/
inductive Op where
  | mov
  | add
  | jne
  | psh
  | pop
  | cal
  | ret
  | hlt
  deriving DecidableEq, Repr

/-- The four addressing modes (R83). -/
inductive Mode where
  | lit
  | reg
  | dir
  | ind
  deriving DecidableEq, Repr

/-- A source operand is read; a destination operand names where a value goes (R82, glossary of spec/00_scope.md). -/
inductive OperandKind where
  | source
  | destination
  deriving DecidableEq, Repr

/-- Bytes that claim to be an instruction: the leading byte and the payload bytes after it (R80). -/
structure Image where
  lead : Byte
  payload : List Byte
  deriving DecidableEq, Repr

/-- Field `op`, bits 7:4 of the leading byte (R81). -/
def opField (b0 : Byte) : Nat := b0.toNat / 16

/-- Field `ma`, bits 3:2 of the leading byte (R81). -/
def maField (b0 : Byte) : Nat := b0.toNat / 4 % 4

/-- Field `mb`, bits 1:0 of the leading byte (R81). -/
def mbField (b0 : Byte) : Nat := b0.toNat % 4

/-- Operation codes (R82); 0x0 and 0x9 to 0xF are unassigned. -/
def opOfCode : Nat → Option Op
  | 1 => some .mov
  | 2 => some .add
  | 3 => some .jne
  | 4 => some .psh
  | 5 => some .pop
  | 6 => some .cal
  | 7 => some .ret
  | 8 => some .hlt
  | _ => none

/-- Mode codes 00, 01, 10, 11 (R83). -/
def modeOfCode : Nat → Mode
  | 0 => .lit
  | 1 => .reg
  | 2 => .dir
  | _ => .ind

/-- The operands of an operation, A then B (R82). -/
def Op.operands : Op → List OperandKind
  | .mov => [.source, .destination]
  | .add => [.source, .source]
  | .jne => [.source, .source]
  | .psh => [.source]
  | .pop => [.destination]
  | .cal => [.source]
  | .ret => []
  | .hlt => []

/-- A source operand admits all four modes, a destination all but Literal (R85). -/
def OperandKind.admits : OperandKind → Mode → Bool
  | .source, _ => true
  | .destination, .lit => false
  | .destination, _ => true

/-- The size of a mode's payload in bytes (R86). -/
def Mode.payloadSize : Mode → Nat
  | .lit => 2
  | .reg => 1
  | .dir => 2
  | .ind => 1

/-- The modes of the operands the operation has, A then B, as the leading byte states them. -/
def operandModes (b0 : Byte) : List Mode :=
  match opOfCode (opField b0) with
  | none => []
  | some op => [modeOfCode (maField b0), modeOfCode (mbField b0)].take op.operands.length

/-- Length of an instruction from its leading byte alone: `1 + size(A) + size(B)` (R86). -/
def lengthOfLead (b0 : Byte) : Nat := 1 + ((operandModes b0).map Mode.payloadSize).sum

/-- The operation field is assigned (R82, first group of R89). -/
def Image.opAssigned (w : Image) : Bool := (opOfCode (opField w.lead)).isSome

/-- Each operand the operation has is given a mode it admits, and the mode field of an operand it does not have is 00
(R85, second and third groups of R89). -/
def Image.modesAdmitted (w : Image) : Bool :=
  match (opOfCode (opField w.lead)).map Op.operands with
  | some [a, b] => a.admits (modeOfCode (maField w.lead)) && b.admits (modeOfCode (mbField w.lead))
  | some [a] => a.admits (modeOfCode (maField w.lead)) && mbField w.lead == 0
  | some [] => maField w.lead == 0 && mbField w.lead == 0
  | _ => true

/-- The payload has the bytes the modes ask for, no more and no fewer (R84, R86). -/
def Image.lengthRight (w : Image) : Bool := w.payload.length + 1 == lengthOfLead w.lead

/-- Every register payload is a register number, 0 to 7 (R90); word payloads are unconstrained (R94). -/
def registersNamed : List Mode → List Byte → Bool
  | [], _ => true
  | .reg :: ms, b :: bs => decide (b.toNat ≤ 7) && registersNamed ms bs
  | .ind :: ms, b :: bs => decide (b.toNat ≤ 7) && registersNamed ms bs
  | _ :: ms, _ :: _ :: bs => registersNamed ms bs
  | _ :: _, _ => true

/-- The bytes are one whole instruction (R91). -/
def Image.wf (w : Image) : Bool :=
  w.opAssigned && w.modesAdmitted && w.lengthRight && registersNamed (operandModes w.lead) w.payload

/-- A leading byte is one of the 57 assigned values: its operation is assigned and its modes are admitted
(R82, R85, R92). -/
def leadAssigned (b0 : Byte) : Bool := Image.opAssigned ⟨b0, []⟩ && Image.modesAdmitted ⟨b0, []⟩

end Sys2Proof
end

