-- ==== Sys2Proof/Safety.lean ====
section
/-! DEFINITION. The terms the claims about this machine use: the families of instructions by operand, the total
readings of an operand (what the spec's `Src` and `Dst` come to when nothing is raised), which bytes and registers an
instruction may write, what a stop and a commit leave, and the invariant every step keeps. -/

namespace Sys2Proof.Machine

/-! ### The forms of a family, by operand -/

/-- The MOV form with these operands: the twelve constructors `movLR` to `movII`. -/
def movOf : Source → Dest → Instr
  | .lit v, .reg r => .movLR v r
  | .lit v, .dir d => .movLD v d
  | .lit v, .ind r => .movLI v r
  | .reg q, .reg r => .movRR q r
  | .reg q, .dir d => .movRD q d
  | .reg q, .ind r => .movRI q r
  | .dir e, .reg r => .movDR e r
  | .dir e, .dir d => .movDD e d
  | .dir e, .ind r => .movDI e r
  | .ind q, .reg r => .movIR q r
  | .ind q, .dir d => .movID q d
  | .ind q, .ind r => .movII q r

/-- The ADD form with these operands: the sixteen constructors `addLL` to `addII`. -/
def addOf : Source → Source → Instr
  | .lit v, .lit w => .addLL v w
  | .lit v, .reg r => .addLR v r
  | .lit v, .dir d => .addLD v d
  | .lit v, .ind r => .addLI v r
  | .reg q, .lit w => .addRL q w
  | .reg q, .reg r => .addRR q r
  | .reg q, .dir d => .addRD q d
  | .reg q, .ind r => .addRI q r
  | .dir e, .lit w => .addDL e w
  | .dir e, .reg r => .addDR e r
  | .dir e, .dir d => .addDD e d
  | .dir e, .ind r => .addDI e r
  | .ind q, .lit w => .addIL q w
  | .ind q, .reg r => .addIR q r
  | .ind q, .dir d => .addID q d
  | .ind q, .ind r => .addII q r

/-- The JNE form with these operands, target first: the sixteen constructors `jneLL` to `jneII`. -/
def jneOf : Source → Source → Instr
  | .lit v, .lit w => .jneLL v w
  | .lit v, .reg r => .jneLR v r
  | .lit v, .dir d => .jneLD v d
  | .lit v, .ind r => .jneLI v r
  | .reg q, .lit w => .jneRL q w
  | .reg q, .reg r => .jneRR q r
  | .reg q, .dir d => .jneRD q d
  | .reg q, .ind r => .jneRI q r
  | .dir e, .lit w => .jneDL e w
  | .dir e, .reg r => .jneDR e r
  | .dir e, .dir d => .jneDD e d
  | .dir e, .ind r => .jneDI e r
  | .ind q, .lit w => .jneIL q w
  | .ind q, .reg r => .jneIR q r
  | .ind q, .dir d => .jneID q d
  | .ind q, .ind r => .jneII q r

/-- The PSH form with this operand: `pshL`, `pshR`, `pshD`, `pshI`. -/
def pshOf : Source → Instr
  | .lit v => .pshL v
  | .reg r => .pshR r
  | .dir d => .pshD d
  | .ind r => .pshI r

/-- The POP form with this operand: `popR`, `popD`, `popI`. -/
def popOf : Dest → Instr
  | .reg r => .popR r
  | .dir d => .popD d
  | .ind r => .popI r

/-- The CAL form with this operand: `calL`, `calR`, `calD`, `calI`. -/
def calOf : Source → Instr
  | .lit v => .calL v
  | .reg r => .calR r
  | .dir d => .calD d
  | .ind r => .calI r

/-! ### Operands, read without a raise -/

/-- The address a source operand's word stands at, if the mode reads memory (R83, R113). -/
def sourceAddr (a : Source) (s : State) : Option Nat :=
  match a with
  | .lit _ => none
  | .reg _ => none
  | .dir addr => some addr.toNat
  | .ind r => some (s.get r).toNat

/-- The value of a source operand, where its word is in memory's range (R113). -/
def sourceValue (a : Source) (s : State) : Word :=
  match a with
  | .lit imm => imm
  | .reg r => s.get r
  | .dir addr => s.wordAt addr.toNat
  | .ind r => s.wordAt (s.get r).toNat

/-- The address a destination operand stores at, if it is a memory destination (R114). -/
def destAddr (b : Dest) (s : State) : Option Nat :=
  match b with
  | .reg _ => none
  | .dir addr => some addr.toNat
  | .ind r => some (s.get r).toNat

/-- A whole word at `a` lies inside memory (R57). -/
def wordInRange (s : State) (a : Nat) : Bool := decide (a + 1 < s.cfg.memSize)

/-- The source operand can be resolved: it reads no memory, or its word lies inside memory. -/
def sourceFits (a : Source) (s : State) : Bool := (sourceAddr a s).all (wordInRange s)

/-! ### What a cycle leaves -/

/-- The state a stop other than HLT leaves (R116, R117): the state in which the cycle began, Halted, with the record. -/
def stoppedAt (s : State) (reason : StopReason) (opcode : Option Byte) : State :=
  { s with run := .halted, stop := some ⟨reason, s.ip, opcode, s.cycles⟩ }

/-- What every committed cycle but HLT's leaves of the state outside registers and memory (R32, R110): `CYCLES` counts
it, and the run state, the stop record and the configuration are as before. -/
abbrev CommittedFrom (s t : State) : Prop :=
  t.cycles = s.cycles + 1 ∧ t.run = s.run ∧ t.stop = s.stop ∧ t.cfg = s.cfg

/-- The destination register an instruction names (MOV and POP with a register destination). -/
def namedDest : Instr → Option Reg
  | .movLR _ r => some r
  | .movRR _ r => some r
  | .movDR _ r => some r
  | .movIR _ r => some r
  | .popR r => some r
  | _ => none

/-- The registers an operation writes without naming them, other than IP (table of R23). -/
def implicitDests : Op → List Reg
  | .mov => []
  | .add => [.acc]
  | .jne => []
  | .psh => [.sp]
  | .pop => [.sp]
  | .cal => [.sp, .fp]
  | .ret => [.r1, .r2, .r3, .r4, .sp, .fp]
  | .hlt => []

/-- The operation of an instruction, from its leading byte (R81, R82). -/
def operationOf (i : Instr) : Option Op := opOfCode (opField (leadByte i))

/-- The bytes an instruction stores to, as their lowest address and their number (R60): a word for a memory
destination of MOV and POP and for PSH, six words for CAL, nothing for any other form. The address of a MOV or POP
destination is taken in the state after the IP advance, where the effect takes it. -/
def storeRange (i : Instr) (s : State) : Nat × Nat :=
  match i with
  | .movLD _ d => (d.toNat, 2)
  | .movRD _ d => (d.toNat, 2)
  | .movDD _ d => (d.toNat, 2)
  | .movID _ d => (d.toNat, 2)
  | .popD d => (d.toNat, 2)
  | .movLI _ r => (((s.advance (instrLength i)).get r).toNat, 2)
  | .movRI _ r => (((s.advance (instrLength i)).get r).toNat, 2)
  | .movDI _ r => (((s.advance (instrLength i)).get r).toNat, 2)
  | .movII _ r => (((s.advance (instrLength i)).get r).toNat, 2)
  | .popI r => (((s.advance (instrLength i)).get r).toNat, 2)
  | .pshL _ => (s.sp.toNat - 2, 2)
  | .pshR _ => (s.sp.toNat - 2, 2)
  | .pshD _ => (s.sp.toNat - 2, 2)
  | .pshI _ => (s.sp.toNat - 2, 2)
  | .calL _ => (s.sp.toNat - 12, 12)
  | .calR _ => (s.sp.toNat - 12, 12)
  | .calD _ => (s.sp.toNat - 12, 12)
  | .calI _ => (s.sp.toNat - 12, 12)
  | _ => (0, 0)

/-! ### Safe runs -/

/-- OutOfBounds, StackOverflow and StackUnderflow are the fatal faults; the two halts are not (R250). -/
def StopReason.isFault : StopReason → Bool
  | .hltInstruction => false
  | .illegalOpcode _ _ => false
  | .outOfBounds _ _ _ => true
  | .stackOverflow _ => true
  | .stackUnderflow _ => true

/-- The run has not ended in a fatal fault. -/
def State.unfaulted (s : State) : Bool := s.stop.all fun record => !record.reason.isFault

/-- What a stop record says of the state it stands in (R31, R116 to R118, R257): its count is `CYCLES`; IP still holds
the address of the stopping instruction, unless that was HLT, which leaves IP just past its own byte 0x80; the leading
byte is missing only when its own fetch was out of bounds; and an out-of-bounds address is at most 0x10000. -/
abbrev StopRecord.fits (r : StopRecord) (s : State) : Prop :=
  r.cycles = s.cycles ∧
  (r.reason = .hltInstruction → s.ip = r.instrAddr + 1 ∧ r.opcode = some 0x80) ∧
  (r.reason ≠ .hltInstruction → s.ip = r.instrAddr) ∧
  (r.opcode = none → r.reason = .outOfBounds r.instrAddr.toNat .read .byte) ∧
  (∀ a dir width, r.reason = .outOfBounds a dir width → a ≤ 0x10000)

/-- The invariant of the machine: the parameters are in the ranges of R4; memory is in its canonical form and lists no
byte beyond `MEM_SIZE` (R33); the stop record is empty exactly while Running (R31), and says what R31 says when it is
not. -/
structure Inv (s : State) : Prop where
  config : s.cfg.Valid
  memCanonical : Memory.wf s.mem
  memInRange : ∀ c ∈ s.mem, c.1 < s.cfg.memSize
  runningIffNoStop : s.run = .running ↔ s.stop = none
  stopFits : ∀ r, s.stop = some r → r.fits s

end Sys2Proof.Machine
end

