-- ==== Sys2Proof/Certificates/Slice0/Obligations.lean ====
section
/-! DEFINITION. The statements for the provers. Each docstring names the rules it formalises. In a statement about a
form, `u` is the state the effect sees: the state the cycle began in, with IP advanced past the instruction (rule R25).
A statement about `movOf a d` is about the twelve constructors movLR movLD movLI movRR movRD movRI movDR movDD movDI
movIR movID movII; about `addOf a b`, addLL to addII (sixteen); about `jneOf a b`, jneLL to jneII (sixteen); about
`pshOf a`, pshL pshR pshD pshI; about `popOf d`, popR popD popI; about `calOf a`, calL calR calD calI. -/

open Sys2Proof Sys2Proof.Machine

/-! ### Encoding and decode -/

/-- Words written out from R87 and R92 decode to the instructions they stand for, one for each family. -/
def Obligations.WrittenOutWordsDecode : Prop :=
  decode [0x11, 0x12, 0x34, 0x03] = .instr (.movLR 0x1234 .r2) ∧
  decode [0x16, 0x02, 0x01, 0x02] = .instr (.movRD .r1 0x0102) ∧
  decode [0x2E, 0x02, 0x01, 0x02] = .instr (.addID .r1 0x0102) ∧
  decode [0x30, 0x00, 0x40, 0x00, 0x07] = .instr (.jneLL 0x0040 0x0007) ∧
  decode [0x4C, 0x06] = .instr (.pshI .sp) ∧
  decode [0x58, 0x01, 0x02] = .instr (.popD 0x0102) ∧
  decode [0x64, 0x07] = .instr (.calR .fp) ∧
  decode [0x70] = .instr .ret ∧
  decode [0x80] = .instr .hlt

/-- R84, R87, R88, R92: the decoder reads from the encoder's bytes the instruction they were made from, with every
operand at every value, whatever bytes follow. -/
def Obligations.DecodeOfEncodeGivesTheInstruction : Prop :=
  ∀ (i : Instr) (rest : List Byte), decode (encode i ++ rest) = .instr i

/-- R80, R84, R91: bytes that decode to an instruction begin with the encoder's bytes of it, so that no bit of an
instruction is ignored and no instruction has two encodings. -/
def Obligations.DecodedBytesAreTheEncoding : Prop :=
  ∀ (bs : List Byte) (i : Instr), decode bs = .instr i → ∃ rest, bs = encode i ++ rest

/-- R82 to R86, R89, R90 against R92: the bytes of instructions, as the opcode map gives them, are exactly the images
whose operation is assigned, whose modes are admitted, whose length is right and whose registers are named. -/
def Obligations.EncodingsAreTheWellFormedImages : Prop :=
  ∀ w : Image, w.wf = true ↔ ∃ i : Instr, encode i = w.lead :: w.payload

/-- R86: the length depends on the leading byte alone, is 1 plus the sizes of the payloads, and runs from 1 (RET, HLT)
to 5. -/
def Obligations.LengthFollowsFromLeadingByte : Prop :=
  (∀ i : Instr, instrLength i = lengthOfLead (leadByte i) ∧ 1 ≤ instrLength i ∧ instrLength i ≤ 5) ∧
  instrLength .ret = 1 ∧ instrLength .hlt = 1

/-- R85, R89: 57 leading bytes are assigned; every other is illegal, whatever bytes follow, and no assigned one is
refused at offset 0. -/
def Obligations.UnassignedLeadingBytesAreIllegal : Prop :=
  ((List.range 256).filter fun n => leadAssigned (BitVec.ofNat 8 n)).length = 57 ∧
  ∀ (b0 : Byte) (rest : List Byte), leadAssigned b0 = false ↔ decode (b0 :: rest) = .illegal 0 b0

/-- R90: a register payload above 7 is illegal and is reported where it stands: operand A at offset 1; operand B at
offset 2 after a register payload, at offset 3 after a word payload. -/
def Obligations.RegisterPayloadAboveSevenIsIllegal : Prop :=
  ∀ (b0 b : Byte), leadAssigned b0 = true → 7 < b.toNat →
    (∀ (m : Mode) (ms : List Mode) (rest : List Byte), operandModes b0 = m :: ms → m = .reg ∨ m = .ind →
      decode (b0 :: b :: rest) = .illegal 1 b) ∧
    (∀ (m n : Mode) (a : Byte) (rest : List Byte), operandModes b0 = [m, n] → m = .reg ∨ m = .ind →
      n = .reg ∨ n = .ind → a.toNat ≤ 7 → decode (b0 :: a :: b :: rest) = .illegal 2 b) ∧
    (∀ (m n : Mode) (hi lo : Byte) (rest : List Byte), operandModes b0 = [m, n] → m = .lit ∨ m = .dir →
      n = .reg ∨ n = .ind → decode (b0 :: hi :: lo :: b :: rest) = .illegal 3 b)

/-! ### The cycle -/

/-- R110, R119: while Running, when the bytes at IP decode to an instruction, the step is that instruction's meaning. -/
def Obligations.StepRunsTheDecodedInstruction : Prop :=
  ∀ (s : State) (i : Instr), s.run = .running → decode (fetchWindow s s.ip.toNat 5) = .instr i → step s = exec i s

/-- R65, R88, R110: while Running, when memory holds an instruction's bytes at IP, whole and inside memory, the step
runs that instruction. -/
def Obligations.StepRunsTheInstructionInMemory : Prop :=
  ∀ (s : State) (i : Instr), s.run = .running → s.ip.toNat + instrLength i ≤ s.cfg.memSize →
    (∀ k, k < instrLength i → (encode i)[k]? = some (s.byteAt (s.ip.toNat + k))) → step s = exec i s

/-- Derived from R120 and R293 by the model's reading in log entry 2 (DEDUCED): a cycle is enabled exactly while
Running, and then it has a next state, a stop being one too; a Halted core has no step, which the model answers with
`Fault.halted`. -/
def Obligations.StepExistsExactlyWhileRunning : Prop :=
  ∀ s : State, (s.run = .running → ∃ t, step s = .next t) ∧ (s.run = .halted → step s = .fault .halted)

/-- R89, R117, R241: an unassigned byte at IP halts in place: `IllegalOpcode` with IP and the byte, registers, memory
and `CYCLES` unchanged. -/
def Obligations.UnassignedByteAtIpHalts : Prop :=
  ∀ s : State, s.run = .running → s.ip.toNat < s.cfg.memSize → leadAssigned (s.byteAt s.ip.toNat) = false →
    step s = .next (stoppedAt s (.illegalOpcode s.ip.toNat (s.byteAt s.ip.toNat)) (some (s.byteAt s.ip.toNat)))

/-- R90, R117, R254: whenever decode finds an illegal byte, the step halts in place, the record names the address the
byte stands at in memory and its value, and the leading byte. -/
def Obligations.IllegalByteIsReportedWhereItStands : Prop :=
  ∀ (s : State) (off : Nat) (b : Byte), s.run = .running →
    decode (fetchWindow s s.ip.toNat 5) = .illegal off b →
    s.ip.toNat + off < s.cfg.memSize ∧ b = s.byteAt (s.ip.toNat + off) ∧
    step s = .next (stoppedAt s (.illegalOpcode (s.ip.toNat + off) b) (some (s.byteAt s.ip.toNat)))

/-- R27, R53, R88: IP at or beyond `MEM_SIZE` faults at the fetch, with no leading byte in the record. -/
def Obligations.IpBeyondMemoryFaultsAtFetch : Prop :=
  ∀ s : State, s.run = .running → s.cfg.memSize ≤ s.ip.toNat →
    step s = .next (stoppedAt s (.outOfBounds s.ip.toNat .read .byte) none)

/-- R57, R88, R116: whenever decode runs out of memory, the payload it reports begins inside memory or just past its end
and does not lie whole inside it, and the step faults in place, reporting that address, unwrapped. -/
def Obligations.TruncatedInstructionFaults : Prop :=
  ∀ (s : State) (off : Nat) (w : Width), s.run = .running → s.ip.toNat < s.cfg.memSize →
    decode (fetchWindow s s.ip.toNat 5) = .cut off w →
    s.ip.toNat + off ≤ s.cfg.memSize ∧
    s.cfg.memSize ≤ s.ip.toNat + off + (match w with | .byte => 0 | .word => 1) ∧
    step s = .next (stoppedAt s (.outOfBounds (s.ip.toNat + off) .read w) (some (s.byteAt s.ip.toNat)))

/-- R116, R117, R259: a cycle that stops, unless by HLT, leaves every register, every byte, `CYCLES` and the parameters
as they were; only the run state and the record change, and the record holds IP, `CYCLES` and the leading byte, none
only where that byte itself is out of bounds. -/
def Obligations.StoppingCycleCommitsNothing : Prop :=
  ∀ (s t : State) (r : StopRecord), s.stop = none → step s = .next t → t.stop = some r →
    r.reason ≠ .hltInstruction →
    t = { s with run := .halted, stop := some r } ∧ r.instrAddr = s.ip ∧ r.cycles = s.cycles ∧
    (s.ip.toNat < s.cfg.memSize → r.opcode = some (s.byteAt s.ip.toNat)) ∧
    (s.cfg.memSize ≤ s.ip.toNat → r.opcode = none)

/-- R32, R118: a step counts one cycle exactly when it commits; a committed step leaves the core Running, unless it is
HLT's; a step that does not commit leaves it Halted, and not by HLT. -/
def Obligations.CyclesCountsCommittedSteps : Prop :=
  ∀ s t : State, s.stop = none → step s = .next t →
    (t.cycles = s.cycles + 1 ∧
      ((t.run = .running ∧ t.stop = none) ∨ ∃ r, t.run = .halted ∧ t.stop = some r ∧ r.reason = .hltInstruction)) ∨
    (t.cycles = s.cycles ∧ ∃ r, t.run = .halted ∧ t.stop = some r ∧ r.reason ≠ .hltInstruction)

/-- R118, R250: only HLT asks for the halt. -/
def Obligations.OnlyHltHaltsNormally : Prop :=
  ∀ (i : Instr) (s t : State) (r : StopRecord), s.stop = none → exec i s = .next t → t.stop = some r →
    r.reason = .hltInstruction → i = .hlt

/-- R240: HLT is the byte 0x80; it advances IP past its byte, is counted, and halts with the record `HltInstruction,
ia, 0x80, CYCLES`; nothing else changes. -/
def Obligations.HltHalts : Prop :=
  encode .hlt = [0x80] ∧ ∀ s : State, exec .hlt s = .next { s with
    ip := s.ip + 1
    cycles := s.cycles + 1
    run := .halted
    stop := some ⟨.hltInstruction, s.ip, some 0x80, s.cycles + 1⟩ }

/-! ### Reset and the invariant -/

/-- R38: what reset leaves, for every value of the parameters: the host's memory is untouched. -/
def Obligations.ResetValues : Prop :=
  ∀ (cfg : Config) (mem : Memory), cfg.Valid →
    let s := State.launch cfg mem
    s.ip = cfg.entry ∧ s.acc = 0 ∧ s.r1 = 0 ∧ s.r2 = 0 ∧ s.r3 = 0 ∧ s.r4 = 0 ∧
    s.sp.toNat = cfg.stackTop ∧ s.fp.toNat = cfg.stackTop ∧
    s.run = .running ∧ s.stop = none ∧ s.cycles = 0 ∧ s.mem = mem ∧ s.cfg = cfg

/-- R285: with all of memory zero (here: no byte listed, log entry 3) and `ENTRY` = 0 the first cycle ends the run, at
every size of memory. -/
def Obligations.EmptyMemoryHaltsAtOnce : Prop :=
  ∀ cfg : Config, cfg.Valid → cfg.entry = 0 →
    step (State.launch cfg []) =
      .next (stoppedAt (State.launch cfg []) (.illegalOpcode 0x0000 0x00) (some 0x00))

/-- The invariant holds at `State.reset`, whose empty memory is the model's choice (log entry 3), and after every
launch with parameters in range and a canonical memory that lists no byte beyond memory. -/
def Obligations.ResetMeetsTheInvariant : Prop :=
  Inv State.reset ∧
  ∀ (cfg : Config) (mem : Memory), cfg.Valid → Memory.wf mem → (∀ c ∈ mem, c.1 < cfg.memSize) →
    Inv (State.launch cfg mem)

/-- R31, R33, R35: every step keeps the invariant, from every state that meets it: the parameters stay in range, memory
stays canonical and inside `MEM_SIZE`, the record is empty exactly while Running and says what R31 says of the state
it stands in. -/
def Obligations.StepKeepsTheInvariant : Prop :=
  ∀ s t : State, Inv s → step s = .next t → Inv t

/-- R35: no step changes the parameters, and a run of any length keeps the invariant and them. -/
def Obligations.RunKeepsTheInvariantAndParameters : Prop :=
  ∀ (n : Nat) (s : State), Inv s → Inv (drive n s) ∧ (drive n s).cfg = s.cfg

/-! ### Registers and memory -/

/-- R20, R23: a register holds the value last written to it, and no register aliases another or anything else. -/
def Obligations.RegisterSetThenGet : Prop :=
  ∀ (s : State) (r : Reg) (v : Word),
    (s.set r v).get r = v ∧ (∀ q, q ≠ r → (s.set r v).get q = s.get q) ∧
    (s.set r v).mem = s.mem ∧ (s.set r v).run = s.run ∧ (s.set r v).stop = s.stop ∧
    (s.set r v).cycles = s.cycles ∧ (s.set r v).cfg = s.cfg

/-- R53, R54 (and the bounds of R55 to R57): the accessors raise exactly outside `[0, MEM_SIZE)`, reporting the address
handed to them, and otherwise read what memory holds, the byte at the lower address more significant. -/
def Obligations.AccessorsCheckBounds : Prop :=
  ∀ (s : State) (a : Nat),
    (s.cfg.memSize ≤ a → readByte a s = .error (.outOfBounds a .read .byte) ∧
      ∀ b, writeByte a b s = .error (.outOfBounds a .write .byte)) ∧
    (s.cfg.memSize ≤ a + 1 → readWord a s = .error (.outOfBounds a .read .word) ∧
      ∀ v, writeWord a v s = .error (.outOfBounds a .write .word)) ∧
    (a < s.cfg.memSize → readByte a s = .ok (s.byteAt a)) ∧
    (a + 1 < s.cfg.memSize → ∃ v, readWord a s = .ok v ∧
      v.toNat = (s.byteAt a).toNat * 256 + (s.byteAt (a + 1)).toNat)

/-- R56 (and R59's round trip): out of range a word write raises and leaves no state; in range the word written is the
word read back, its bytes are its more and less significant halves, no other byte changes, and nothing but memory
changes. -/
def Obligations.WordWrittenIsReadBack : Prop :=
  ∀ (s : State) (a : Nat) (v : Word), Memory.wf s.mem →
    (s.cfg.memSize ≤ a + 1 → writeWord a v s = .error (.outOfBounds a .write .word)) ∧
    (a + 1 < s.cfg.memSize →
      ∃ t, writeWord a v s = .ok t ∧ readWord a t = .ok v ∧
        (∃ hi lo, readByte a t = .ok hi ∧ readByte (a + 1) t = .ok lo ∧
          hi.toNat = v.toNat / 256 ∧ lo.toNat = v.toNat % 256) ∧
        (∀ x, x ≠ a → x ≠ a + 1 → t.byteAt x = s.byteAt x) ∧
        (∀ r, t.get r = s.get r) ∧ t.run = s.run ∧ t.stop = s.stop ∧ t.cycles = s.cycles ∧ t.cfg = s.cfg)

/-- R55, R59: two byte writes make the word they spell. -/
def Obligations.TwoBytesMakeTheWord : Prop :=
  ∀ (s : State) (a : Nat) (hi lo : Byte), Memory.wf s.mem → a + 1 < s.cfg.memSize →
    ∃ t u, writeByte a hi s = .ok t ∧ writeByte (a + 1) lo t = .ok u ∧
      ∃ v, readWord a u = .ok v ∧ v.toNat = hi.toNat * 256 + lo.toNat

/-- The frame of every instruction on registers (table of R23): a register other than IP changes only if the instruction
names it as its destination or its operation writes it without naming it. -/
def Obligations.RegistersChangeOnlyAsNamed : Prop :=
  ∀ (i : Instr) (op : Op) (s t : State) (r : Reg), exec i s = .next t → operationOf i = some op →
    r ≠ .ip → r ∉ implicitDests op → namedDest i ≠ some r → t.get r = s.get r

/-- The frame of every instruction on memory (R60): a byte changes only if it is one of the bytes the instruction
stores to; a form that stores nothing changes no byte. -/
def Obligations.MemoryChangesOnlyWhereStored : Prop :=
  ∀ (i : Instr) (s t : State), Memory.wf s.mem → exec i s = .next t →
    ∀ x, x < (storeRange i s).1 ∨ (storeRange i s).1 + (storeRange i s).2 ≤ x → t.byteAt x = s.byteAt x

/-- R65, R289: a word MOV stores where execution goes on is what the next fetch sees. -/
def Obligations.StoreIsSeenByTheNextFetch : Prop :=
  ∀ (s t : State) (a : Source) (d : Dest) (x : Nat),
    let u := s.advance (instrLength (movOf a d))
    Memory.wf s.mem → sourceFits a u = true → destAddr d u = some x → x + 1 < s.cfg.memSize → x = u.ip.toNat →
    exec (movOf a d) s = .next t →
    fetchWindow t t.ip.toNat 2 = [hiByte (sourceValue a u), loByte (sourceValue a u)]

/-! ### MOV -/

/-- R140, R141, R144, R147, R150: MOV to a register. When the source fits, the cycle completes: the register named holds
the source's value, every other register is as after the advance, and nothing else changes but `CYCLES`. -/
def Obligations.MovToRegister : Prop :=
  ∀ (s : State) (a : Source) (r : Reg),
    let u := s.advance (instrLength (movOf a (.reg r)))
    sourceFits a u = true →
    ∃ t, exec (movOf a (.reg r)) s = .next t ∧ t.get r = sourceValue a u ∧
      (∀ q, q ≠ r → t.get q = u.get q) ∧ t.mem = s.mem ∧ CommittedFrom s t

/-- R140, R142, R143, R145, R146, R148, R149, R151, R152: MOV to memory. When source and destination lie inside memory,
the cycle completes: the two bytes at the destination are the source's value, every other byte and every register is
as after the advance. -/
def Obligations.MovToMemory : Prop :=
  ∀ (s : State) (a : Source) (d : Dest) (x : Nat),
    let u := s.advance (instrLength (movOf a d))
    Memory.wf s.mem → sourceFits a u = true → destAddr d u = some x → x + 1 < s.cfg.memSize →
    ∃ t, exec (movOf a d) s = .next t ∧
      t.byteAt x = hiByte (sourceValue a u) ∧ t.byteAt (x + 1) = loByte (sourceValue a u) ∧
      (∀ y, y ≠ x → y ≠ x + 1 → t.byteAt y = s.byteAt y) ∧ (∀ q, t.get q = u.get q) ∧ CommittedFrom s t

/-- R116, R140, R258: MOV's stops, the source before the destination; nothing is written. -/
def Obligations.MovStops : Prop :=
  ∀ (s : State) (a : Source) (d : Dest) (x : Nat),
    let i := movOf a d
    let u := s.advance (instrLength i)
    s.cfg.memSize ≤ x + 1 →
    (sourceAddr a u = some x →
      exec i s = .next (stoppedAt s (.outOfBounds x .read .word) (some (leadByte i)))) ∧
    (sourceFits a u = true → destAddr d u = some x →
      exec i s = .next (stoppedAt s (.outOfBounds x .write .word) (some (leadByte i))))

/-! ### ADD -/

/-- R160, R161 (R162 to R177): when both operands fit, ADD completes: ACC is the sum modulo 65536, every other register
is as after the advance, and nothing else changes but `CYCLES`. -/
def Obligations.AddWritesTheSumToAcc : Prop :=
  ∀ (s : State) (a b : Source),
    let u := s.advance (instrLength (addOf a b))
    sourceFits a u = true → sourceFits b u = true →
    ∃ t, exec (addOf a b) s = .next t ∧
      t.acc.toNat = ((sourceValue a u).toNat + (sourceValue b u).toNat) % 65536 ∧
      (∀ q, q ≠ .acc → t.get q = u.get q) ∧ t.mem = s.mem ∧ CommittedFrom s t

/-- R116, R160, R258: ADD's stops, operand A before operand B; ACC is unchanged. -/
def Obligations.AddStops : Prop :=
  ∀ (s : State) (a b : Source) (x : Nat),
    let i := addOf a b
    let u := s.advance (instrLength i)
    s.cfg.memSize ≤ x + 1 →
    (sourceAddr a u = some x →
      exec i s = .next (stoppedAt s (.outOfBounds x .read .word) (some (leadByte i)))) ∧
    (sourceFits a u = true → sourceAddr b u = some x →
      exec i s = .next (stoppedAt s (.outOfBounds x .read .word) (some (leadByte i))))

/-! ### JNE -/

/-- R180, R181 (R182 to R197): when both operands fit, JNE completes: IP is the target if ACC differs from the
comparison value and else the address after the instruction; nothing else changes but `CYCLES`. -/
def Obligations.JneBranchesOrFallsThrough : Prop :=
  ∀ (s : State) (a b : Source),
    let u := s.advance (instrLength (jneOf a b))
    sourceFits a u = true → sourceFits b u = true →
    ∃ t, exec (jneOf a b) s = .next t ∧
      (s.acc ≠ sourceValue b u → t.ip = sourceValue a u) ∧
      (s.acc = sourceValue b u → t.ip.toNat = (s.ip.toNat + instrLength (jneOf a b)) % 65536) ∧
      (∀ q, q ≠ .ip → t.get q = s.get q) ∧ t.mem = s.mem ∧ CommittedFrom s t

/-- R112, R116, R180, R258: JNE's stops, target before comparison value, whatever ACC holds: a branch that would not be
taken faults all the same. -/
def Obligations.JneStopsWhetherOrNotTaken : Prop :=
  ∀ (s : State) (a b : Source) (x : Nat),
    let i := jneOf a b
    let u := s.advance (instrLength i)
    s.cfg.memSize ≤ x + 1 →
    (sourceAddr a u = some x →
      exec i s = .next (stoppedAt s (.outOfBounds x .read .word) (some (leadByte i)))) ∧
    (sourceFits a u = true → sourceAddr b u = some x →
      exec i s = .next (stoppedAt s (.outOfBounds x .read .word) (some (leadByte i))))

/-! ### PSH and POP -/

/-- R200 (R202 to R205): when the operand fits and the new SP is inside the segment and memory, PSH completes: SP falls
by 2, the word at the new SP is the operand as it was before SP moved, every other byte and register is as after the
advance. -/
def Obligations.PshStoresBelowSp : Prop :=
  ∀ (s : State) (a : Source),
    let u := s.advance (instrLength (pshOf a))
    Memory.wf s.mem → sourceFits a u = true →
    s.cfg.stackBottom + 2 ≤ s.sp.toNat → s.sp.toNat ≤ s.cfg.memSize →
    ∃ t, exec (pshOf a) s = .next t ∧ t.sp.toNat = s.sp.toNat - 2 ∧
      t.byteAt (s.sp.toNat - 2) = hiByte (sourceValue a u) ∧
      t.byteAt (s.sp.toNat - 1) = loByte (sourceValue a u) ∧
      (∀ y, y ≠ s.sp.toNat - 2 → y ≠ s.sp.toNat - 1 → t.byteAt y = s.byteAt y) ∧
      (∀ q, q ≠ .sp → t.get q = u.get q) ∧ CommittedFrom s t

/-- R116, R200, R252, R258: PSH's stops in their order: the operand, StackOverflow with SP as it was, the write. -/
def Obligations.PshStops : Prop :=
  ∀ (s : State) (a : Source),
    let i := pshOf a
    let u := s.advance (instrLength i)
    (∀ x, sourceAddr a u = some x → s.cfg.memSize ≤ x + 1 →
      exec i s = .next (stoppedAt s (.outOfBounds x .read .word) (some (leadByte i)))) ∧
    (sourceFits a u = true → (s.sp.toNat : Int) - 2 < s.cfg.stackBottom →
      exec i s = .next (stoppedAt s (.stackOverflow s.sp) (some (leadByte i)))) ∧
    (sourceFits a u = true → s.cfg.stackBottom + 2 ≤ s.sp.toNat → s.cfg.memSize < s.sp.toNat →
      exec i s = .next (stoppedAt s (.outOfBounds (s.sp.toNat - 2) .write .word) (some (leadByte i))))

/-- R201, R206: when a whole word lies below `STACK_TOP`, POP to a register completes: the register holds the word at SP
and SP rises by 2; into SP itself, SP is the word plus 2. No byte changes and no other register. -/
def Obligations.PopToRegister : Prop :=
  ∀ (s : State) (r : Reg), s.cfg.Valid → s.sp.toNat + 2 ≤ s.cfg.stackTop →
    ∃ t, exec (.popR r) s = .next t ∧
      (r ≠ .sp → t.get r = s.wordAt s.sp.toNat ∧ t.sp.toNat = s.sp.toNat + 2) ∧
      (r = .sp → t.sp.toNat = ((s.wordAt s.sp.toNat).toNat + 2) % 65536) ∧
      (∀ q, q ≠ r → q ≠ .sp → t.get q = (s.advance 2).get q) ∧ t.mem = s.mem ∧ CommittedFrom s t

/-- R201, R207, R208: POP to memory: the word at SP is stored at the destination, whose address is taken before SP
rises, and SP rises by 2. -/
def Obligations.PopToMemory : Prop :=
  ∀ (s : State) (d : Dest) (x : Nat),
    let u := s.advance (instrLength (popOf d))
    s.cfg.Valid → Memory.wf s.mem → s.sp.toNat + 2 ≤ s.cfg.stackTop →
    destAddr d u = some x → x + 1 < s.cfg.memSize →
    ∃ t, exec (popOf d) s = .next t ∧ t.sp.toNat = s.sp.toNat + 2 ∧
      t.byteAt x = s.byteAt s.sp.toNat ∧ t.byteAt (x + 1) = s.byteAt (s.sp.toNat + 1) ∧
      (∀ y, y ≠ x → y ≠ x + 1 → t.byteAt y = s.byteAt y) ∧
      (∀ q, q ≠ .sp → t.get q = u.get q) ∧ CommittedFrom s t

/-- R116, R201, R253, R258: POP's stops in their order: StackUnderflow with SP as it was, the destination. -/
def Obligations.PopStops : Prop :=
  ∀ (s : State) (d : Dest),
    let i := popOf d
    let u := s.advance (instrLength i)
    s.cfg.Valid →
    (s.cfg.stackTop < s.sp.toNat + 2 →
      exec i s = .next (stoppedAt s (.stackUnderflow s.sp) (some (leadByte i)))) ∧
    (∀ x, s.sp.toNat + 2 ≤ s.cfg.stackTop → destAddr d u = some x → s.cfg.memSize ≤ x + 1 →
      exec i s = .next (stoppedAt s (.outOfBounds x .write .word) (some (leadByte i))))

/-- R209 for one pair, whatever runs between that leaves SP where the PSH left it and the pushed word in memory: POP
gives the value pushed and SP is back. -/
def Obligations.PopGivesBackWhatPshPushed : Prop :=
  ∀ (s v : State) (a : Source) (r : Reg),
    let u := s.advance (instrLength (pshOf a))
    s.cfg.Valid → Memory.wf s.mem → sourceFits a u = true →
    s.cfg.stackBottom + 2 ≤ s.sp.toNat → s.sp.toNat ≤ s.cfg.stackTop → r ≠ .sp →
    ∃ t, exec (pshOf a) s = .next t ∧
      (v.cfg = t.cfg → v.sp = t.sp → v.byteAt t.sp.toNat = t.byteAt t.sp.toNat →
        v.byteAt (t.sp.toNat + 1) = t.byteAt (t.sp.toNat + 1) →
        ∃ w, exec (.popR r) v = .next w ∧ w.get r = sourceValue a u ∧ w.sp = s.sp)

/-! ### CAL and RET -/

/-- R220 to R222 (R223 to R226): when the target fits and the frame has room, CAL completes: the six frame words stand
below the old SP in the order of R220, SP and FP are the frame's base, IP is the target; no other byte changes, and
ACC and R1 to R4 keep their values. -/
def Obligations.CalPushesTheFrame : Prop :=
  ∀ (s : State) (a : Source),
    let u := s.advance (instrLength (calOf a))
    let S := s.sp.toNat
    Memory.wf s.mem → sourceFits a u = true → s.cfg.stackBottom + 12 ≤ S → S ≤ s.cfg.memSize →
    ∃ t, exec (calOf a) s = .next t ∧
      t.wordAt (S - 2) = s.r1 ∧ t.wordAt (S - 4) = s.r2 ∧ t.wordAt (S - 6) = s.r3 ∧ t.wordAt (S - 8) = s.r4 ∧
      (t.wordAt (S - 10)).toNat = (s.ip.toNat + instrLength (calOf a)) % 65536 ∧
      (t.wordAt (S - 12)).toNat = (s.fp.toNat + 65536 - S) % 65536 / 2 ∧
      (∀ y, y < S - 12 ∨ S ≤ y → t.byteAt y = s.byteAt y) ∧
      t.sp.toNat = S - 12 ∧ t.fp.toNat = S - 12 ∧ t.ip = sourceValue a u ∧
      t.acc = s.acc ∧ t.r1 = s.r1 ∧ t.r2 = s.r2 ∧ t.r3 = s.r3 ∧ t.r4 = s.r4 ∧ CommittedFrom s t

/-- R116, R222, R252, R258: CAL's stops in their order: the target, StackOverflow for the whole frame, the first
write. -/
def Obligations.CalStops : Prop :=
  ∀ (s : State) (a : Source),
    let i := calOf a
    let u := s.advance (instrLength i)
    (∀ x, sourceAddr a u = some x → s.cfg.memSize ≤ x + 1 →
      exec i s = .next (stoppedAt s (.outOfBounds x .read .word) (some (leadByte i)))) ∧
    (sourceFits a u = true → (s.sp.toNat : Int) - 12 < s.cfg.stackBottom →
      exec i s = .next (stoppedAt s (.stackOverflow s.sp) (some (leadByte i)))) ∧
    (sourceFits a u = true → s.cfg.stackBottom + 12 ≤ s.sp.toNat → s.cfg.memSize < s.sp.toNat →
      exec i s = .next (stoppedAt s (.outOfBounds (s.sp.toNat - 2) .write .word) (some (leadByte i))))

/-- R227, R228: when the frame at FP and the words its count names lie below `STACK_TOP`, RET completes: R1 to R4 and IP
come from the frame, SP and FP are both `FP + 12 + 2n`; ACC and every byte keep their values, and SP is not read. -/
def Obligations.RetRestoresTheFrame : Prop :=
  ∀ s : State,
    let F := s.fp.toNat
    let newSP := F + 12 + 2 * (s.wordAt F).toNat
    s.cfg.Valid → newSP ≤ s.cfg.stackTop →
    ∃ t, exec .ret s = .next t ∧
      t.ip = s.wordAt (F + 2) ∧ t.r4 = s.wordAt (F + 4) ∧ t.r3 = s.wordAt (F + 6) ∧
      t.r2 = s.wordAt (F + 8) ∧ t.r1 = s.wordAt (F + 10) ∧
      t.sp.toNat = newSP ∧ t.fp.toNat = newSP ∧ t.acc = s.acc ∧ t.mem = s.mem ∧ CommittedFrom s t

/-- R116, R228, R253: RET's two tests: the frame below `STACK_TOP`, and the words the count names; both report FP. -/
def Obligations.RetStops : Prop :=
  ∀ s : State,
    let F := s.fp.toNat
    s.cfg.Valid →
    (s.cfg.stackTop < F + 12 → exec .ret s = .next (stoppedAt s (.stackUnderflow s.fp) (some 0x70))) ∧
    (F + 12 ≤ s.cfg.stackTop → s.cfg.stackTop < F + 12 + 2 * (s.wordAt F).toNat →
      exec .ret s = .next (stoppedAt s (.stackUnderflow s.fp) (some 0x70)))

/-- R227, R229, R230: a RET undoes a CAL, whatever the callee did in between, as long as FP and the twelve bytes of the
frame are as the CAL left them: IP is the address after the CAL, R1 to R4 are as before it, and SP and FP are both
the caller's FP. -/
def Obligations.RetUndoesCal : Prop :=
  ∀ (s v : State) (a : Source),
    let u := s.advance (instrLength (calOf a))
    s.cfg.Valid → Memory.wf s.mem → sourceFits a u = true →
    s.cfg.stackBottom + 12 ≤ s.sp.toNat → s.sp.toNat ≤ s.fp.toNat → s.fp.toNat ≤ s.cfg.stackTop →
    (s.fp.toNat - s.sp.toNat) % 2 = 0 →
    ∃ t, exec (calOf a) s = .next t ∧
      (v.cfg = t.cfg → v.fp = t.fp →
        (∀ x, s.sp.toNat - 12 ≤ x → x < s.sp.toNat → v.byteAt x = t.byteAt x) →
        ∃ w, exec .ret v = .next w ∧ w.ip = u.ip ∧ w.r1 = s.r1 ∧ w.r2 = s.r2 ∧ w.r3 = s.r3 ∧ w.r4 = s.r4 ∧
          w.sp = s.fp ∧ w.fp = s.fp ∧ w.acc = v.acc ∧ w.mem = v.mem)

/-- R28, R62: with SP at or below `STACK_TOP`, no push and no call changes a byte at or above `STACK_TOP`: the sentinel
word is never written by the stack. -/
def Obligations.PushesStayBelowStackTop : Prop :=
  ∀ (i : Instr) (s t : State) (a : Source), i = pshOf a ∨ i = calOf a → Memory.wf s.mem →
    s.sp.toNat ≤ s.cfg.stackTop → exec i s = .next t → ∀ x, s.cfg.stackTop ≤ x → t.byteAt x = s.byteAt x

/-- R200, R222: a push or a call that completes leaves SP inside the segment, at or above `STACK_BOTTOM`. -/
def Obligations.PushesStayAboveStackBottom : Prop :=
  ∀ (i : Instr) (s t : State) (a : Source), i = pshOf a ∨ i = calOf a → s.stop = none →
    exec i s = .next t → t.stop = none → t.cfg.stackBottom ≤ t.sp.toNat

/-! ### The host's moves -/

/-- R38, R268: an image that fits is in memory from `LOAD_BASE` on when the run starts, and every register has its reset
value. That every other byte reads 0x00 is the model's choice (log entry 3, DESIGN CHOICE, unsafe), after the loader
convention of R38: R282 leaves those bytes to the host and forbids assuming them zero. -/
def Obligations.BootPlacesTheImage : Prop :=
  ∀ (cfg : Config) (image : List Byte), cfg.Valid → cfg.loadBase + image.length ≤ cfg.memSize →
    ∃ s, boot cfg image = .ok s ∧ Inv s ∧
      (∀ k, k < image.length → image[k]? = some (s.byteAt (cfg.loadBase + k))) ∧
      (∀ x, x < cfg.loadBase ∨ cfg.loadBase + image.length ≤ x → s.byteAt x = 0x00) ∧
      { s with mem := [] } = State.launch cfg []

/-- The model's own loading of a table word (log entry 4): the next step runs the instruction the decoder reads from
it. -/
def Obligations.PlacedTableWordRunsNext : Prop :=
  ∀ (s : State) (nbits w : Nat) (i : Instr), Memory.wf s.mem → s.run = .running →
    s.ip.toNat + 5 ≤ s.cfg.memSize → decodeTableWord nbits w = some i →
    step (s.withFetchWord nbits w) = exec i (s.withFetchWord nbits w)

/-- R269, R120: driving cycles in two parts is driving them at once, and cycles beyond the stop change nothing. -/
def Obligations.PausingBetweenCyclesChangesNothing : Prop :=
  ∀ (m n : Nat) (s : State), drive (m + n) s = drive n (drive m s) ∧
    ((drive m s).run = .halted → drive (m + n) s = drive m s)
end

