-- ==== Sys2Proof/Laws/Decode.lean ====
section
/-! SUPPORT. The pieces of decoding and encoding undo each other: register bytes, word bytes, payloads. -/

namespace Sys2Proof

@[simp] theorem regOfByte_regByte (r : Reg) : regOfByte (regByte r) = some r := by cases r <;> rfl

/-- A byte from its number: what a branch of the opcode map knows of the leading byte. -/
theorem byte_eq_of_toNat {b : Byte} {n : Nat} (h : b.toNat = n) : b = BitVec.ofNat 8 n := by
  rw [← h, BitVec.ofNat_toNat, BitVec.setWidth_eq]

/-- A byte that names a register is that register's number. -/
theorem regOfByte_eq_some {b : Byte} {r : Reg} (h : regOfByte b = some r) : b = regByte r := by
  unfold regOfByte at h
  apply BitVec.eq_of_toNat_eq
  split at h <;> simp_all only [Option.some.injEq, reduceCtorEq]
  all_goals (subst h; simp_all [regByte])

/-- The bytes that name no register are those above 7 (R90). -/
theorem regOfByte_eq_none {b : Byte} : regOfByte b = none ↔ 7 < b.toNat := by
  unfold regOfByte
  split <;> (simp_all; try omega)

/-- The value of a big-endian word (R52). -/
theorem wordOfBytes_toNat (hi lo : Byte) : (wordOfBytes hi lo).toNat = hi.toNat * 256 + lo.toNat := by
  have := lo.isLt
  rw [wordOfBytes, BitVec.toNat_append, Nat.shiftLeft_eq, Nat.mul_comm, ← Nat.two_pow_add_eq_or_of_lt this,
    Nat.mul_comm]

theorem hiByte_toNat (v : Word) : (hiByte v).toNat = v.toNat / 256 := by
  have := v.isLt
  simp only [hiByte, BitVec.extractLsb'_toNat, Nat.shiftRight_eq_div_pow]
  omega

theorem loByte_toNat (v : Word) : (loByte v).toNat = v.toNat % 256 := by
  simp [loByte, BitVec.extractLsb'_toNat]

@[simp] theorem wordOfBytes_hi_lo (v : Word) : wordOfBytes (hiByte v) (loByte v) = v := by
  apply BitVec.eq_of_toNat_eq
  rw [wordOfBytes_toNat, hiByte_toNat, loByte_toNat]
  omega

@[simp] theorem hiByte_wordOfBytes (hi lo : Byte) : hiByte (wordOfBytes hi lo) = hi := by
  apply BitVec.eq_of_toNat_eq
  have := lo.isLt
  rw [hiByte_toNat, wordOfBytes_toNat]
  omega

@[simp] theorem loByte_wordOfBytes (hi lo : Byte) : loByte (wordOfBytes hi lo) = lo := by
  apply BitVec.eq_of_toNat_eq
  have := lo.isLt
  rw [loByte_toNat, wordOfBytes_toNat]
  omega

@[simp] theorem takeWord_bytes (off : Nat) (hi lo : Byte) (rest : List Byte) (k : Word → List Byte → Decoded) :
    takeWord off (hi :: lo :: rest) k = k (wordOfBytes hi lo) rest := rfl

@[simp] theorem takeReg_byte (off : Nat) (r : Reg) (rest : List Byte) (k : Reg → List Byte → Decoded) :
    takeReg off (regByte r :: rest) k = k r rest := by simp [takeReg]

/-- A word payload that decodes to an instruction is two bytes, more significant first. -/
theorem takeWord_eq_instr {off : Nat} {bs : List Byte} {k : Word → List Byte → Decoded} {i : Instr}
    (h : takeWord off bs k = .instr i) : ∃ v rest, bs = hiByte v :: loByte v :: rest ∧ k v rest = .instr i := by
  unfold takeWord at h
  split at h
  · next hi lo rest => exact ⟨wordOfBytes hi lo, rest, by simp, h⟩
  · simp at h

/-- A register payload that decodes to an instruction is the number of a register. -/
theorem takeReg_eq_instr {off : Nat} {bs : List Byte} {k : Reg → List Byte → Decoded} {i : Instr}
    (h : takeReg off bs k = .instr i) : ∃ r rest, bs = regByte r :: rest ∧ k r rest = .instr i := by
  unfold takeReg at h
  split at h
  · next b rest =>
    split at h
    · next r hr => exact ⟨r, rest, by rw [regOfByte_eq_some hr], h⟩
    · simp at h
  · simp at h

/-! ### What a payload can come to, when it is no instruction -/

theorem takeWord_eq_illegal {off o : Nat} {bs : List Byte} {k : Word → List Byte → Decoded} {b : Byte}
    (h : takeWord off bs k = .illegal o b) : ∃ hi lo rest, bs = hi :: lo :: rest ∧ k (wordOfBytes hi lo) rest = .illegal o b := by
  unfold takeWord at h
  split at h
  · exact ⟨_, _, _, rfl, h⟩
  · simp at h

theorem takeReg_eq_illegal {off o : Nat} {bs : List Byte} {k : Reg → List Byte → Decoded} {b : Byte}
    (h : takeReg off bs k = .illegal o b) :
    (∃ rest, bs = b :: rest ∧ o = off ∧ 7 < b.toNat) ∨ ∃ r c rest, bs = c :: rest ∧ k r rest = .illegal o b := by
  unfold takeReg at h
  split at h
  · split at h
    · exact .inr ⟨_, _, _, rfl, h⟩
    · next hn => cases h; exact .inl ⟨_, rfl, rfl, regOfByte_eq_none.1 hn⟩
  · simp at h

theorem takeWord_eq_cut {off o : Nat} {bs : List Byte} {k : Word → List Byte → Decoded} {w : Width}
    (h : takeWord off bs k = .cut o w) :
    (bs.length < 2 ∧ o = off ∧ w = .word) ∨ ∃ v hi lo rest, bs = hi :: lo :: rest ∧ k v rest = .cut o w := by
  unfold takeWord at h
  split at h
  · exact .inr ⟨_, _, _, _, rfl, h⟩
  · next hn =>
    cases h
    refine .inl ⟨?_, rfl, rfl⟩
    match bs, hn with
    | [], _ => simp
    | [_], _ => simp
    | x :: y :: rest, hn => exact absurd rfl (hn x y rest)

theorem takeReg_eq_cut {off o : Nat} {bs : List Byte} {k : Reg → List Byte → Decoded} {w : Width}
    (h : takeReg off bs k = .cut o w) :
    (bs = [] ∧ o = off ∧ w = .byte) ∨ ∃ r c rest, bs = c :: rest ∧ k r rest = .cut o w := by
  unfold takeReg at h
  split at h
  · split at h
    · exact .inr ⟨_, _, _, rfl, h⟩
    · simp at h
  · cases h; exact .inl ⟨rfl, rfl, rfl⟩

/-! ### The six formats with a payload -/

theorem decodeFB_eq_instr {mk : Reg → Instr} {bs : List Byte} {i : Instr} (h : decodeFB mk bs = .instr i) :
    ∃ a rest, bs = regByte a :: rest ∧ mk a = i := by
  obtain ⟨a, rest, rfl, h1⟩ := takeReg_eq_instr h
  exact ⟨a, rest, rfl, by simpa using h1⟩

theorem decodeFW_eq_instr {mk : Word → Instr} {bs : List Byte} {i : Instr} (h : decodeFW mk bs = .instr i) :
    ∃ a rest, bs = hiByte a :: loByte a :: rest ∧ mk a = i := by
  obtain ⟨a, rest, rfl, h1⟩ := takeWord_eq_instr h
  exact ⟨a, rest, rfl, by simpa using h1⟩

theorem decodeFBB_eq_instr {mk : Reg → Reg → Instr} {bs : List Byte} {i : Instr} (h : decodeFBB mk bs = .instr i) :
    ∃ a b rest, bs = regByte a :: regByte b :: rest ∧ mk a b = i := by
  obtain ⟨a, rest, rfl, h1⟩ := takeReg_eq_instr h
  obtain ⟨b, rest, rfl, h2⟩ := takeReg_eq_instr h1
  exact ⟨a, b, rest, rfl, by simpa using h2⟩

theorem decodeFBW_eq_instr {mk : Reg → Word → Instr} {bs : List Byte} {i : Instr} (h : decodeFBW mk bs = .instr i) :
    ∃ a b rest, bs = regByte a :: hiByte b :: loByte b :: rest ∧ mk a b = i := by
  obtain ⟨a, rest, rfl, h1⟩ := takeReg_eq_instr h
  obtain ⟨b, rest, rfl, h2⟩ := takeWord_eq_instr h1
  exact ⟨a, b, rest, rfl, by simpa using h2⟩

theorem decodeFWB_eq_instr {mk : Word → Reg → Instr} {bs : List Byte} {i : Instr} (h : decodeFWB mk bs = .instr i) :
    ∃ a b rest, bs = hiByte a :: loByte a :: regByte b :: rest ∧ mk a b = i := by
  obtain ⟨a, rest, rfl, h1⟩ := takeWord_eq_instr h
  obtain ⟨b, rest, rfl, h2⟩ := takeReg_eq_instr h1
  exact ⟨a, b, rest, rfl, by simpa using h2⟩

theorem decodeFWW_eq_instr {mk : Word → Word → Instr} {bs : List Byte} {i : Instr} (h : decodeFWW mk bs = .instr i) :
    ∃ a b rest, bs = hiByte a :: loByte a :: hiByte b :: loByte b :: rest ∧ mk a b = i := by
  obtain ⟨a, rest, rfl, h1⟩ := takeWord_eq_instr h
  obtain ⟨b, rest, rfl, h2⟩ := takeWord_eq_instr h1
  exact ⟨a, b, rest, rfl, by simpa using h2⟩

/-- A payload format, seen from the byte after the leading byte: what it finds illegal stands where it says and is above
7, and what it finds missing begins inside the bytes or just past them and is not whole there. -/
structure FormatFaults (f : List Byte → Decoded) : Prop where
  illegal : ∀ bs off b, f bs = .illegal off b → ∃ k, off = k + 1 ∧ bs[k]? = some b ∧ 7 < b.toNat
  cut : ∀ bs off w, f bs = .cut off w → ∃ k, off = k + 1 ∧ k ≤ bs.length ∧
    bs.length ≤ k + (match w with | .byte => 0 | .word => 1) ∧ bs.length ≤ 3

theorem decodeFB_faults (mk : Reg → Instr) : FormatFaults (decodeFB mk) where
  illegal bs off b h := by
    rcases takeReg_eq_illegal h with ⟨rest, rfl, rfl, hb⟩ | ⟨r, c, rest, rfl, h1⟩
    · exact ⟨0, rfl, rfl, hb⟩
    · simp at h1
  cut bs off w h := by
    rcases takeReg_eq_cut h with ⟨rfl, rfl, rfl⟩ | ⟨r, c, rest, rfl, h1⟩
    · exact ⟨0, rfl, by simp, by simp, by simp⟩
    · simp at h1

theorem decodeFW_faults (mk : Word → Instr) : FormatFaults (decodeFW mk) where
  illegal bs off b h := by
    obtain ⟨hi, lo, rest, rfl, h1⟩ := takeWord_eq_illegal h
    simp at h1
  cut bs off w h := by
    rcases takeWord_eq_cut h with ⟨hl, rfl, rfl⟩ | ⟨v, hi, lo, rest, rfl, h1⟩
    · exact ⟨0, rfl, by omega, by simp; omega, by omega⟩
    · simp at h1

theorem decodeFBB_faults (mk : Reg → Reg → Instr) : FormatFaults (decodeFBB mk) where
  illegal bs off b h := by
    rcases takeReg_eq_illegal h with ⟨rest, rfl, rfl, hb⟩ | ⟨r, c, rest, rfl, h1⟩
    · exact ⟨0, rfl, rfl, hb⟩
    rcases takeReg_eq_illegal h1 with ⟨rest, rfl, rfl, hb⟩ | ⟨r, c, rest, rfl, h2⟩
    · exact ⟨1, rfl, rfl, hb⟩
    · simp at h2
  cut bs off w h := by
    rcases takeReg_eq_cut h with ⟨rfl, rfl, rfl⟩ | ⟨r, c, rest, rfl, h1⟩
    · exact ⟨0, rfl, by simp, by simp, by simp⟩
    rcases takeReg_eq_cut h1 with ⟨rfl, rfl, rfl⟩ | ⟨r, c, rest, rfl, h2⟩
    · exact ⟨1, rfl, by simp, by simp, by simp⟩
    · simp at h2

theorem decodeFBW_faults (mk : Reg → Word → Instr) : FormatFaults (decodeFBW mk) where
  illegal bs off b h := by
    rcases takeReg_eq_illegal h with ⟨rest, rfl, rfl, hb⟩ | ⟨r, c, rest, rfl, h1⟩
    · exact ⟨0, rfl, rfl, hb⟩
    obtain ⟨hi, lo, rest, rfl, h2⟩ := takeWord_eq_illegal h1
    simp at h2
  cut bs off w h := by
    rcases takeReg_eq_cut h with ⟨rfl, rfl, rfl⟩ | ⟨r, c, rest, rfl, h1⟩
    · exact ⟨0, rfl, by simp, by simp, by simp⟩
    rcases takeWord_eq_cut h1 with ⟨hl, rfl, rfl⟩ | ⟨v, hi, lo, rest, rfl, h2⟩
    · exact ⟨1, rfl, by simp, by simp; omega, by simp; omega⟩
    · simp at h2

theorem decodeFWB_faults (mk : Word → Reg → Instr) : FormatFaults (decodeFWB mk) where
  illegal bs off b h := by
    obtain ⟨hi, lo, rest, rfl, h1⟩ := takeWord_eq_illegal h
    rcases takeReg_eq_illegal h1 with ⟨rest, rfl, rfl, hb⟩ | ⟨r, c, rest, rfl, h2⟩
    · exact ⟨2, rfl, rfl, hb⟩
    · simp at h2
  cut bs off w h := by
    rcases takeWord_eq_cut h with ⟨hl, rfl, rfl⟩ | ⟨v, hi, lo, rest, rfl, h1⟩
    · exact ⟨0, rfl, by omega, by simp; omega, by omega⟩
    rcases takeReg_eq_cut h1 with ⟨rfl, rfl, rfl⟩ | ⟨r, c, rest, rfl, h2⟩
    · exact ⟨2, rfl, by simp, by simp, by simp⟩
    · simp at h2

theorem decodeFWW_faults (mk : Word → Word → Instr) : FormatFaults (decodeFWW mk) where
  illegal bs off b h := by
    obtain ⟨hi, lo, rest, rfl, h1⟩ := takeWord_eq_illegal h
    obtain ⟨hi', lo', rest, rfl, h2⟩ := takeWord_eq_illegal h1
    simp at h2
  cut bs off w h := by
    rcases takeWord_eq_cut h with ⟨hl, rfl, rfl⟩ | ⟨v, hi, lo, rest, rfl, h1⟩
    · exact ⟨0, rfl, by omega, by simp; omega, by omega⟩
    rcases takeWord_eq_cut h1 with ⟨hl, rfl, rfl⟩ | ⟨v, hi', lo', rest, rfl, h2⟩
    · exact ⟨2, rfl, by simp, by simp; omega, by simp; omega⟩
    · simp at h2

/-! ### The decoder -/

/-- What the decoder does after a leading byte: an instruction without payload, a format with payload, or a verdict on
the leading byte itself. -/
theorem decode_cons (b0 : Byte) :
    (∃ i, ∀ bs, decode (b0 :: bs) = .instr i) ∨ (∃ f, FormatFaults f ∧ ∀ bs, decode (b0 :: bs) = f bs) ∨
    ∀ bs, decode (b0 :: bs) = .illegal 0 b0 := by
  unfold decode
  dsimp only
  split
  all_goals first
    | exact .inl ⟨_, fun _ => rfl⟩
    | exact .inr (.inl ⟨_, decodeFB_faults _, fun _ => rfl⟩)
    | exact .inr (.inl ⟨_, decodeFW_faults _, fun _ => rfl⟩)
    | exact .inr (.inl ⟨_, decodeFBB_faults _, fun _ => rfl⟩)
    | exact .inr (.inl ⟨_, decodeFBW_faults _, fun _ => rfl⟩)
    | exact .inr (.inl ⟨_, decodeFWB_faults _, fun _ => rfl⟩)
    | exact .inr (.inl ⟨_, decodeFWW_faults _, fun _ => rfl⟩)
    | exact .inr (.inr fun _ => rfl)

/-- An illegal byte stands at the offset the decoder reports. -/
theorem decode_eq_illegal {bs : List Byte} {off : Nat} {b : Byte} (h : decode bs = .illegal off b) :
    bs[off]? = some b := by
  cases bs with
  | nil => simp [decode] at h
  | cons b0 bs =>
    rcases decode_cons b0 with ⟨i, hd⟩ | ⟨f, hf, hd⟩ | hd
    · rw [hd] at h; simp at h
    · rw [hd] at h
      obtain ⟨k, rfl, hk, -⟩ := hf.illegal _ _ _ h
      simpa using hk
    · rw [hd] at h; cases h; rfl

/-- An instruction's leading byte is the byte it was decoded at. -/
theorem leadByte_of_decode {b0 : Byte} {bs : List Byte} {i : Instr} (h : decode (b0 :: bs) = .instr i) :
    leadByte i = b0 := by
  unfold decode at h
  dsimp only at h
  split at h
  all_goals
    next hb =>
    first
      | (obtain ⟨a, rest, -, rfl⟩ := decodeFB_eq_instr h; exact (byte_eq_of_toNat hb).symm)
      | (obtain ⟨a, rest, -, rfl⟩ := decodeFW_eq_instr h; exact (byte_eq_of_toNat hb).symm)
      | (obtain ⟨a, b, rest, -, rfl⟩ := decodeFBB_eq_instr h; exact (byte_eq_of_toNat hb).symm)
      | (obtain ⟨a, b, rest, -, rfl⟩ := decodeFBW_eq_instr h; exact (byte_eq_of_toNat hb).symm)
      | (obtain ⟨a, b, rest, -, rfl⟩ := decodeFWB_eq_instr h; exact (byte_eq_of_toNat hb).symm)
      | (obtain ⟨a, b, rest, -, rfl⟩ := decodeFWW_eq_instr h; exact (byte_eq_of_toNat hb).symm)
      | (cases h; exact (byte_eq_of_toNat hb).symm)
      | cases h

/-- A missing payload begins inside the bytes or just past them, and is not whole there: fewer bytes are
there than the longest instruction has. -/
theorem decode_eq_cut {bs : List Byte} {off : Nat} {w : Width} (h : decode bs = .cut off w) :
    off ≤ bs.length ∧ bs.length ≤ off + (match w with | .byte => 0 | .word => 1) ∧ bs.length ≤ 4 := by
  cases bs with
  | nil => simp only [decode] at h; cases h; simp
  | cons b0 bs =>
    rcases decode_cons b0 with ⟨i, hd⟩ | ⟨f, hf, hd⟩ | hd
    · rw [hd] at h; simp at h
    · rw [hd] at h
      obtain ⟨k, rfl, hk, hk', hl⟩ := hf.cut _ _ _ h
      simp only [List.length_cons]
      exact ⟨by omega, by cases w <;> (dsimp only at hk' ⊢; omega), by omega⟩
    · rw [hd] at h; simp at h

end Sys2Proof
end

