-- ==== Sys2Proof/Laws/State.lean ====
section
/-! SUPPORT. The small lemmas of the state's updates: one per field per update, and the two laws of the register file.
No proof after this file unfolds a record update. -/

namespace Sys2Proof.Machine

variable (s : State)

/-! ### The advance, the commit and the halt -/

@[simp] theorem advance_ip (len : Nat) : (s.advance len).ip = s.ip + BitVec.ofNat 16 len := rfl
@[simp] theorem advance_acc (len : Nat) : (s.advance len).acc = s.acc := rfl
@[simp] theorem advance_r1 (len : Nat) : (s.advance len).r1 = s.r1 := rfl
@[simp] theorem advance_r2 (len : Nat) : (s.advance len).r2 = s.r2 := rfl
@[simp] theorem advance_r3 (len : Nat) : (s.advance len).r3 = s.r3 := rfl
@[simp] theorem advance_r4 (len : Nat) : (s.advance len).r4 = s.r4 := rfl
@[simp] theorem advance_sp (len : Nat) : (s.advance len).sp = s.sp := rfl
@[simp] theorem advance_fp (len : Nat) : (s.advance len).fp = s.fp := rfl
@[simp] theorem advance_run (len : Nat) : (s.advance len).run = s.run := rfl
@[simp] theorem advance_stop (len : Nat) : (s.advance len).stop = s.stop := rfl
@[simp] theorem advance_cycles (len : Nat) : (s.advance len).cycles = s.cycles := rfl
@[simp] theorem advance_mem (len : Nat) : (s.advance len).mem = s.mem := rfl
@[simp] theorem advance_cfg (len : Nat) : (s.advance len).cfg = s.cfg := rfl

@[simp] theorem commit_ip : s.commit.ip = s.ip := rfl
@[simp] theorem commit_acc : s.commit.acc = s.acc := rfl
@[simp] theorem commit_r1 : s.commit.r1 = s.r1 := rfl
@[simp] theorem commit_r2 : s.commit.r2 = s.r2 := rfl
@[simp] theorem commit_r3 : s.commit.r3 = s.r3 := rfl
@[simp] theorem commit_r4 : s.commit.r4 = s.r4 := rfl
@[simp] theorem commit_sp : s.commit.sp = s.sp := rfl
@[simp] theorem commit_fp : s.commit.fp = s.fp := rfl
@[simp] theorem commit_run : s.commit.run = s.run := rfl
@[simp] theorem commit_stop : s.commit.stop = s.stop := rfl
@[simp] theorem commit_cycles : s.commit.cycles = s.cycles + 1 := rfl
@[simp] theorem commit_mem : s.commit.mem = s.mem := rfl
@[simp] theorem commit_cfg : s.commit.cfg = s.cfg := rfl

@[simp] theorem halt_ip (reason : StopReason) (ia : Word) (opcode : Option Byte) :
    (s.halt reason ia opcode).ip = s.ip := rfl
@[simp] theorem halt_acc (reason : StopReason) (ia : Word) (opcode : Option Byte) :
    (s.halt reason ia opcode).acc = s.acc := rfl
@[simp] theorem halt_r1 (reason : StopReason) (ia : Word) (opcode : Option Byte) :
    (s.halt reason ia opcode).r1 = s.r1 := rfl
@[simp] theorem halt_r2 (reason : StopReason) (ia : Word) (opcode : Option Byte) :
    (s.halt reason ia opcode).r2 = s.r2 := rfl
@[simp] theorem halt_r3 (reason : StopReason) (ia : Word) (opcode : Option Byte) :
    (s.halt reason ia opcode).r3 = s.r3 := rfl
@[simp] theorem halt_r4 (reason : StopReason) (ia : Word) (opcode : Option Byte) :
    (s.halt reason ia opcode).r4 = s.r4 := rfl
@[simp] theorem halt_sp (reason : StopReason) (ia : Word) (opcode : Option Byte) :
    (s.halt reason ia opcode).sp = s.sp := rfl
@[simp] theorem halt_fp (reason : StopReason) (ia : Word) (opcode : Option Byte) :
    (s.halt reason ia opcode).fp = s.fp := rfl
@[simp] theorem halt_run (reason : StopReason) (ia : Word) (opcode : Option Byte) :
    (s.halt reason ia opcode).run = .halted := rfl
@[simp] theorem halt_stop (reason : StopReason) (ia : Word) (opcode : Option Byte) :
    (s.halt reason ia opcode).stop = some ⟨reason, ia, opcode, s.cycles⟩ := rfl
@[simp] theorem halt_cycles (reason : StopReason) (ia : Word) (opcode : Option Byte) :
    (s.halt reason ia opcode).cycles = s.cycles := rfl
@[simp] theorem halt_mem (reason : StopReason) (ia : Word) (opcode : Option Byte) :
    (s.halt reason ia opcode).mem = s.mem := rfl
@[simp] theorem halt_cfg (reason : StopReason) (ia : Word) (opcode : Option Byte) :
    (s.halt reason ia opcode).cfg = s.cfg := rfl

/-! ### The register file -/

@[simp] theorem set_run (r : Reg) (v : Word) : (s.set r v).run = s.run := by cases r <;> rfl
@[simp] theorem set_stop (r : Reg) (v : Word) : (s.set r v).stop = s.stop := by cases r <;> rfl
@[simp] theorem set_cycles (r : Reg) (v : Word) : (s.set r v).cycles = s.cycles := by cases r <;> rfl
@[simp] theorem set_mem (r : Reg) (v : Word) : (s.set r v).mem = s.mem := by cases r <;> rfl
@[simp] theorem set_cfg (r : Reg) (v : Word) : (s.set r v).cfg = s.cfg := by cases r <;> rfl

/-- R23: a register holds the value last written to it. -/
@[simp] theorem get_set_same (r : Reg) (v : Word) : (s.set r v).get r = v := by cases r <;> rfl

/-- R20: no register aliases another. -/
theorem get_set_other {q r : Reg} (v : Word) (h : q ≠ r) : (s.set r v).get q = s.get q := by
  cases r <;> cases q <;> first | rfl | exact absurd rfl h

/-- Reading any register after a write to any register. -/
theorem get_set (q r : Reg) (v : Word) : (s.set r v).get q = if q = r then v else s.get q := by
  split
  · next h => subst h; simp
  · next h => exact get_set_other s v h

theorem ip_eq_get : s.ip = s.get .ip := rfl
theorem acc_eq_get : s.acc = s.get .acc := rfl
theorem r1_eq_get : s.r1 = s.get .r1 := rfl
theorem r2_eq_get : s.r2 = s.get .r2 := rfl
theorem r3_eq_get : s.r3 = s.get .r3 := rfl
theorem r4_eq_get : s.r4 = s.get .r4 := rfl
theorem sp_eq_get : s.sp = s.get .sp := rfl
theorem fp_eq_get : s.fp = s.get .fp := rfl

@[simp] theorem set_ip_ip (v : Word) : (s.set .ip v).ip = v := rfl
@[simp] theorem set_ip_acc (v : Word) : (s.set .ip v).acc = s.acc := rfl
@[simp] theorem set_ip_r1 (v : Word) : (s.set .ip v).r1 = s.r1 := rfl
@[simp] theorem set_ip_r2 (v : Word) : (s.set .ip v).r2 = s.r2 := rfl
@[simp] theorem set_ip_r3 (v : Word) : (s.set .ip v).r3 = s.r3 := rfl
@[simp] theorem set_ip_r4 (v : Word) : (s.set .ip v).r4 = s.r4 := rfl
@[simp] theorem set_ip_sp (v : Word) : (s.set .ip v).sp = s.sp := rfl
@[simp] theorem set_ip_fp (v : Word) : (s.set .ip v).fp = s.fp := rfl
@[simp] theorem set_acc_ip (v : Word) : (s.set .acc v).ip = s.ip := rfl
@[simp] theorem set_acc_acc (v : Word) : (s.set .acc v).acc = v := rfl
@[simp] theorem set_acc_r1 (v : Word) : (s.set .acc v).r1 = s.r1 := rfl
@[simp] theorem set_acc_r2 (v : Word) : (s.set .acc v).r2 = s.r2 := rfl
@[simp] theorem set_acc_r3 (v : Word) : (s.set .acc v).r3 = s.r3 := rfl
@[simp] theorem set_acc_r4 (v : Word) : (s.set .acc v).r4 = s.r4 := rfl
@[simp] theorem set_acc_sp (v : Word) : (s.set .acc v).sp = s.sp := rfl
@[simp] theorem set_acc_fp (v : Word) : (s.set .acc v).fp = s.fp := rfl
@[simp] theorem set_r1_ip (v : Word) : (s.set .r1 v).ip = s.ip := rfl
@[simp] theorem set_r1_acc (v : Word) : (s.set .r1 v).acc = s.acc := rfl
@[simp] theorem set_r1_r1 (v : Word) : (s.set .r1 v).r1 = v := rfl
@[simp] theorem set_r1_r2 (v : Word) : (s.set .r1 v).r2 = s.r2 := rfl
@[simp] theorem set_r1_r3 (v : Word) : (s.set .r1 v).r3 = s.r3 := rfl
@[simp] theorem set_r1_r4 (v : Word) : (s.set .r1 v).r4 = s.r4 := rfl
@[simp] theorem set_r1_sp (v : Word) : (s.set .r1 v).sp = s.sp := rfl
@[simp] theorem set_r1_fp (v : Word) : (s.set .r1 v).fp = s.fp := rfl
@[simp] theorem set_r2_ip (v : Word) : (s.set .r2 v).ip = s.ip := rfl
@[simp] theorem set_r2_acc (v : Word) : (s.set .r2 v).acc = s.acc := rfl
@[simp] theorem set_r2_r1 (v : Word) : (s.set .r2 v).r1 = s.r1 := rfl
@[simp] theorem set_r2_r2 (v : Word) : (s.set .r2 v).r2 = v := rfl
@[simp] theorem set_r2_r3 (v : Word) : (s.set .r2 v).r3 = s.r3 := rfl
@[simp] theorem set_r2_r4 (v : Word) : (s.set .r2 v).r4 = s.r4 := rfl
@[simp] theorem set_r2_sp (v : Word) : (s.set .r2 v).sp = s.sp := rfl
@[simp] theorem set_r2_fp (v : Word) : (s.set .r2 v).fp = s.fp := rfl
@[simp] theorem set_r3_ip (v : Word) : (s.set .r3 v).ip = s.ip := rfl
@[simp] theorem set_r3_acc (v : Word) : (s.set .r3 v).acc = s.acc := rfl
@[simp] theorem set_r3_r1 (v : Word) : (s.set .r3 v).r1 = s.r1 := rfl
@[simp] theorem set_r3_r2 (v : Word) : (s.set .r3 v).r2 = s.r2 := rfl
@[simp] theorem set_r3_r3 (v : Word) : (s.set .r3 v).r3 = v := rfl
@[simp] theorem set_r3_r4 (v : Word) : (s.set .r3 v).r4 = s.r4 := rfl
@[simp] theorem set_r3_sp (v : Word) : (s.set .r3 v).sp = s.sp := rfl
@[simp] theorem set_r3_fp (v : Word) : (s.set .r3 v).fp = s.fp := rfl
@[simp] theorem set_r4_ip (v : Word) : (s.set .r4 v).ip = s.ip := rfl
@[simp] theorem set_r4_acc (v : Word) : (s.set .r4 v).acc = s.acc := rfl
@[simp] theorem set_r4_r1 (v : Word) : (s.set .r4 v).r1 = s.r1 := rfl
@[simp] theorem set_r4_r2 (v : Word) : (s.set .r4 v).r2 = s.r2 := rfl
@[simp] theorem set_r4_r3 (v : Word) : (s.set .r4 v).r3 = s.r3 := rfl
@[simp] theorem set_r4_r4 (v : Word) : (s.set .r4 v).r4 = v := rfl
@[simp] theorem set_r4_sp (v : Word) : (s.set .r4 v).sp = s.sp := rfl
@[simp] theorem set_r4_fp (v : Word) : (s.set .r4 v).fp = s.fp := rfl
@[simp] theorem set_sp_ip (v : Word) : (s.set .sp v).ip = s.ip := rfl
@[simp] theorem set_sp_acc (v : Word) : (s.set .sp v).acc = s.acc := rfl
@[simp] theorem set_sp_r1 (v : Word) : (s.set .sp v).r1 = s.r1 := rfl
@[simp] theorem set_sp_r2 (v : Word) : (s.set .sp v).r2 = s.r2 := rfl
@[simp] theorem set_sp_r3 (v : Word) : (s.set .sp v).r3 = s.r3 := rfl
@[simp] theorem set_sp_r4 (v : Word) : (s.set .sp v).r4 = s.r4 := rfl
@[simp] theorem set_sp_sp (v : Word) : (s.set .sp v).sp = v := rfl
@[simp] theorem set_sp_fp (v : Word) : (s.set .sp v).fp = s.fp := rfl
@[simp] theorem set_fp_ip (v : Word) : (s.set .fp v).ip = s.ip := rfl
@[simp] theorem set_fp_acc (v : Word) : (s.set .fp v).acc = s.acc := rfl
@[simp] theorem set_fp_r1 (v : Word) : (s.set .fp v).r1 = s.r1 := rfl
@[simp] theorem set_fp_r2 (v : Word) : (s.set .fp v).r2 = s.r2 := rfl
@[simp] theorem set_fp_r3 (v : Word) : (s.set .fp v).r3 = s.r3 := rfl
@[simp] theorem set_fp_r4 (v : Word) : (s.set .fp v).r4 = s.r4 := rfl
@[simp] theorem set_fp_sp (v : Word) : (s.set .fp v).sp = s.sp := rfl
@[simp] theorem set_fp_fp (v : Word) : (s.set .fp v).fp = v := rfl

@[simp] theorem get_ip : s.get .ip = s.ip := rfl
@[simp] theorem get_acc : s.get .acc = s.acc := rfl
@[simp] theorem get_r1 : s.get .r1 = s.r1 := rfl
@[simp] theorem get_r2 : s.get .r2 = s.r2 := rfl
@[simp] theorem get_r3 : s.get .r3 = s.r3 := rfl
@[simp] theorem get_r4 : s.get .r4 = s.r4 := rfl
@[simp] theorem get_sp : s.get .sp = s.sp := rfl
@[simp] theorem get_fp : s.get .fp = s.fp := rfl

/-- Reading a register after the advance: IP has moved, the others have not (R25). -/
theorem get_advance (r : Reg) (len : Nat) :
    (s.advance len).get r = if r = .ip then s.ip + BitVec.ofNat 16 len else s.get r := by
  cases r <;> rfl

@[simp] theorem get_commit (r : Reg) : s.commit.get r = s.get r := by cases r <;> rfl

@[simp] theorem get_halt (r : Reg) (reason : StopReason) (ia : Word) (opcode : Option Byte) :
    (s.halt reason ia opcode).get r = s.get r := by cases r <;> rfl

@[simp] theorem get_withMem (r : Reg) (m : Memory) : { s with mem := m }.get r = s.get r := by cases r <;> rfl

/-! ### Reading memory after an update that leaves memory alone -/

@[simp] theorem byteAt_advance (len a : Nat) : (s.advance len).byteAt a = s.byteAt a := rfl
@[simp] theorem byteAt_commit (a : Nat) : s.commit.byteAt a = s.byteAt a := rfl
@[simp] theorem byteAt_halt (reason : StopReason) (ia : Word) (opcode : Option Byte) (a : Nat) :
    (s.halt reason ia opcode).byteAt a = s.byteAt a := rfl
@[simp] theorem byteAt_set (r : Reg) (v : Word) (a : Nat) : (s.set r v).byteAt a = s.byteAt a := by
  simp [State.byteAt]
@[simp] theorem wordAt_advance (len a : Nat) : (s.advance len).wordAt a = s.wordAt a := rfl
@[simp] theorem wordAt_commit (a : Nat) : s.commit.wordAt a = s.wordAt a := rfl
@[simp] theorem wordAt_set (r : Reg) (v : Word) (a : Nat) : (s.set r v).wordAt a = s.wordAt a := by
  simp [State.wordAt]

/-- A stop is the state before the cycle, Halted, with the record (R116, R117). -/
theorem takeStop_eq (reason : StopReason) (opcode : Option Byte) :
    s.takeStop reason opcode =
      { s with run := .halted, stop := some ⟨reason, s.ip, opcode, s.cycles⟩ } := rfl

end Sys2Proof.Machine
end

