-- ==== Sys2Proof/Laws/Memory.lean ====
section
/-! SUPPORT. Memory as a canonical list: every write keeps the canonical form and the bound of memory, a read gives the
byte last written, and every other byte stays. -/

namespace Sys2Proof.Machine

/-! ### One byte -/

theorem Memory.get_of_all_above {m : Memory} {a : Nat} (h : ∀ c ∈ m, a < c.1) : Memory.get m a = Memory.unlisted := by
  induction m with
  | nil => rfl
  | cons c rest ih =>
    obtain ⟨k, v⟩ := c
    have hk : a < k := h (k, v) (by simp)
    simp only [Memory.get]
    rw [if_neg (by omega)]
    exact ih fun c hc => h c (by simp [hc])

/-- A pair of the memory after a write is a pair of before, or the pair written. -/
theorem Memory.mem_set {m : Memory} {a : Nat} {b : Byte} {c : Host.Cell} (h : c ∈ Memory.set m a b) :
    c ∈ m ∨ (c = (a, b) ∧ b ≠ Memory.unlisted) := by
  induction m with
  | nil =>
    simp only [Memory.set] at h
    split at h <;> simp_all
  | cons d rest ih =>
    obtain ⟨k, v⟩ := d
    simp only [Memory.set] at h
    split at h
    · rcases List.mem_cons.1 h with h | h
      · exact .inl (by simp [h])
      · rcases ih h with h | h
        · exact .inl (by simp [h])
        · exact .inr h
    · split at h
      · split at h
        · exact .inl (by simp [h])
        · rcases List.mem_cons.1 h with h | h
          · exact .inr ⟨h, by assumption⟩
          · exact .inl (by simp [h])
      · split at h
        · exact .inl h
        · rcases List.mem_cons.1 h with h | h
          · exact .inr ⟨h, by assumption⟩
          · exact .inl h

/-- Every write keeps the canonical form. -/
theorem Memory.set_wf {m : Memory} (a : Nat) (b : Byte) (h : Memory.wf m) : Memory.wf (Memory.set m a b) := by
  refine ⟨?_, fun c hc => ?_⟩
  · obtain ⟨hp, -⟩ := h
    induction m with
    | nil =>
      simp only [Memory.set]
      split <;> simp
    | cons d rest ih =>
      obtain ⟨k, v⟩ := d
      obtain ⟨hd, hr⟩ := List.pairwise_cons.1 hp
      simp only [Memory.set]
      split
      · next hk =>
        refine List.pairwise_cons.2 ⟨fun c hc => ?_, ih hr⟩
        rcases Memory.mem_set hc with hc | ⟨rfl, -⟩
        · exact hd c hc
        · exact hk
      · split
        · next hk =>
          subst hk
          split
          · exact hr
          · exact List.pairwise_cons.2 ⟨hd, hr⟩
        · next hk hne =>
          split
          · exact hp
          · refine List.pairwise_cons.2 ⟨fun c hc => ?_, hp⟩
            rcases List.mem_cons.1 hc with rfl | hc
            · show a < k
              omega
            · have := hd c hc
              show a < c.1
              simp at this
              omega
  · rcases Memory.mem_set hc with hc | ⟨rfl, hb⟩
    · exact h.2 c hc
    · exact hb

/-- A read gives the byte last written there. -/
theorem Memory.get_set_same {m : Memory} (a : Nat) (b : Byte) (h : Memory.wf m) :
    Memory.get (Memory.set m a b) a = b := by
  obtain ⟨hp, -⟩ := h
  induction m with
  | nil =>
    simp only [Memory.set]
    split <;> simp_all [Memory.get]
  | cons d rest ih =>
    obtain ⟨k, v⟩ := d
    obtain ⟨hd, hr⟩ := List.pairwise_cons.1 hp
    simp only [Memory.set]
    split
    · next hk => simp only [Memory.get]; rw [if_neg (by omega)]; exact ih hr
    · split
      · next hk =>
        subst hk
        split
        · next hb => rw [hb]; exact Memory.get_of_all_above fun c hc => hd c hc
        · simp [Memory.get]
      · next hk hne =>
        split
        · next hb =>
          rw [hb]
          refine Memory.get_of_all_above fun c hc => ?_
          rcases List.mem_cons.1 hc with rfl | hc
          · show a < k
            omega
          · have := hd c hc
            simp at this
            omega
        · simp [Memory.get]

/-- A write leaves every other byte alone. -/
theorem Memory.get_set_other {m : Memory} {a c : Nat} (b : Byte) (h : Memory.wf m) (hc : c ≠ a) :
    Memory.get (Memory.set m a b) c = Memory.get m c := by
  obtain ⟨hp, -⟩ := h
  induction m with
  | nil =>
    simp only [Memory.set]
    split
    · rfl
    · simp only [Memory.get]; rw [if_neg (by omega)]
  | cons d rest ih =>
    obtain ⟨k, v⟩ := d
    obtain ⟨hd, hr⟩ := List.pairwise_cons.1 hp
    simp only [Memory.set]
    split
    · simp only [Memory.get]; split
      · rfl
      · exact ih hr
    · split
      · next hk =>
        subst hk
        split
        · simp only [Memory.get]; rw [if_neg (by omega)]
        · simp only [Memory.get]; rw [if_neg (by omega), if_neg (by omega)]
      · split
        · rfl
        · conv => lhs; unfold Memory.get
          rw [if_neg (by omega)]

/-! ### One word -/

theorem Memory.setWord_wf {m : Memory} (a : Nat) (v : Word) (h : Memory.wf m) : Memory.wf (Memory.setWord m a v) :=
  Memory.set_wf _ _ (Memory.set_wf _ _ h)

theorem Memory.get_setWord_hi {m : Memory} (a : Nat) (v : Word) (h : Memory.wf m) :
    Memory.get (Memory.setWord m a v) a = hiByte v := by
  rw [Memory.setWord, Memory.get_set_other _ (Memory.set_wf _ _ h) (by omega), Memory.get_set_same _ _ h]

theorem Memory.get_setWord_lo {m : Memory} (a : Nat) (v : Word) (h : Memory.wf m) :
    Memory.get (Memory.setWord m a v) (a + 1) = loByte v :=
  Memory.get_set_same _ _ (Memory.set_wf _ _ h)

theorem Memory.get_setWord_other {m : Memory} {a c : Nat} (v : Word) (h : Memory.wf m) (h0 : c ≠ a)
    (h1 : c ≠ a + 1) : Memory.get (Memory.setWord m a v) c = Memory.get m c := by
  rw [Memory.setWord, Memory.get_set_other _ (Memory.set_wf _ _ h) h1, Memory.get_set_other _ h h0]

/-- A write inside memory lists no address beyond memory (R33). -/
theorem Memory.set_inRange {m : Memory} {a n : Nat} (b : Byte) (h : ∀ c ∈ m, c.1 < n) (ha : a < n) :
    ∀ c ∈ Memory.set m a b, c.1 < n := by
  intro c hc
  rcases Memory.mem_set hc with hc | ⟨rfl, -⟩
  · exact h c hc
  · exact ha

theorem Memory.setWord_inRange {m : Memory} {a n : Nat} (v : Word) (h : ∀ c ∈ m, c.1 < n) (ha : a + 1 < n) :
    ∀ c ∈ Memory.setWord m a v, c.1 < n :=
  Memory.set_inRange _ (Memory.set_inRange _ h (by omega)) ha

/-! ### The accessors -/

variable {s t : State} {a : Nat}

theorem readByte_eq_ok {v : Byte} : readByte a s = .ok v ↔ a < s.cfg.memSize ∧ v = s.byteAt a := by
  unfold readByte
  split <;> simp_all [eq_comm]

theorem readWord_eq_ok {v : Word} : readWord a s = .ok v ↔ a + 1 < s.cfg.memSize ∧ v = s.wordAt a := by
  unfold readWord
  split <;> simp_all [eq_comm]

/-- All a word write can do (R56): in range, memory gets the two bytes and nothing else changes. -/
theorem writeWord_eq_ok {v : Word} :
    writeWord a v s = .ok t ↔ a + 1 < s.cfg.memSize ∧ t = { s with mem := Memory.setWord s.mem a v } := by
  unfold writeWord
  split <;> simp_all [eq_comm]

theorem readWord_of_lt (h : a + 1 < s.cfg.memSize) : readWord a s = .ok (s.wordAt a) := by simp [readWord, h]

theorem readWord_of_ge (h : ¬ a + 1 < s.cfg.memSize) : readWord a s = .error (.outOfBounds a .read .word) := by
  simp [readWord, h]

theorem writeWord_of_lt (v : Word) (h : a + 1 < s.cfg.memSize) :
    writeWord a v s = .ok { s with mem := Memory.setWord s.mem a v } := by simp [writeWord, h]

theorem writeWord_of_ge (v : Word) (h : ¬ a + 1 < s.cfg.memSize) :
    writeWord a v s = .error (.outOfBounds a .write .word) := by simp [writeWord, h]

/-- The word written is the word read back (R59). -/
theorem wordAt_setWord_same (v : Word) (h : Memory.wf s.mem) :
    { s with mem := Memory.setWord s.mem a v }.wordAt a = v := by
  simp only [State.wordAt, State.byteAt]
  rw [Memory.get_setWord_hi a v h, Memory.get_setWord_lo a v h, wordOfBytes_hi_lo]

/-- A word that shares no byte with the one written is as before. -/
theorem wordAt_setWord_other {c : Nat} (v : Word) (h : Memory.wf s.mem) (hc : c + 1 < a ∨ a + 1 < c) :
    { s with mem := Memory.setWord s.mem a v }.wordAt c = s.wordAt c := by
  simp only [State.wordAt, State.byteAt]
  rw [Memory.get_setWord_other v h (by omega) (by omega), Memory.get_setWord_other v h (by omega) (by omega)]

end Sys2Proof.Machine
end

