-- ==== Sys2Proof/Laws/Ops.lean ====
section
/-! SUPPORT. What each shared operation can do, said once: the operand forms, the cycle, and the effect of each family. A
proof about an instruction cites these and unfolds no operation. -/

namespace Sys2Proof.Machine

variable {s t : State} {a b : Source} {d : Dest} {v : Word}

@[simp] theorem ok_bind {α β ε : Type} (x : α) (f : α → Except ε β) : ((Except.ok x : Except ε α) >>= f) = f x := rfl

@[simp] theorem error_bind {α β ε : Type} (e : ε) (f : α → Except ε β) :
    ((Except.error e : Except ε α) >>= f) = .error e := rfl

/-- A computation that raises at most once on the way to its answer did not raise in its first part. -/
theorem bind_eq_ok {α β ε : Type} {x : Except ε α} {f : α → Except ε β} {y : β} :
    (x >>= f) = .ok y ↔ ∃ z, x = .ok z ∧ f z = .ok y := by
  cases x <;> simp

/-- The raise of a computation is the raise of its first part, or of what follows it. -/
theorem bind_eq_error {α β ε : Type} {x : Except ε α} {f : α → Except ε β} {e : ε} :
    (x >>= f) = .error e ↔ x = .error e ∨ ∃ z, x = .ok z ∧ f z = .error e := by
  cases x <;> simp

/-! ### Operands -/

theorem wordInRange_iff {n : Nat} : wordInRange s n = true ↔ n + 1 < s.cfg.memSize := by simp [wordInRange]

/-- A source operand that fits has its value (R113). -/
theorem src_of_fits (h : sourceFits a s = true) : src a s = .ok (sourceValue a s) := by
  cases a <;> simp_all [src, sourceFits, sourceAddr, sourceValue, wordInRange, readWord]

/-- A source operand whose word is not in memory's range raises, and reports its address (R113, R54). -/
theorem src_of_out {x : Nat} (h : sourceAddr a s = some x) (hx : ¬ x + 1 < s.cfg.memSize) :
    src a s = .error (.outOfBounds x .read .word) := by
  cases a <;> simp_all [src, sourceAddr, readWord]

/-- All a source operand can come to. -/
theorem src_cases (a : Source) (s : State) :
    (sourceFits a s = true ∧ src a s = .ok (sourceValue a s)) ∨
    ∃ x : Word, sourceAddr a s = some x.toNat ∧ ¬ x.toNat + 1 < s.cfg.memSize ∧
      src a s = .error (.outOfBounds x.toNat .read .word) := by
  by_cases h : sourceFits a s = true
  · exact .inl ⟨h, src_of_fits h⟩
  · right
    cases a with
    | lit v => simp [sourceFits, sourceAddr] at h
    | reg r => simp [sourceFits, sourceAddr] at h
    | dir x => exact ⟨x, rfl, by simpa [sourceFits, sourceAddr, wordInRange] using h,
        src_of_out rfl (by simpa [sourceFits, sourceAddr, wordInRange] using h)⟩
    | ind r => exact ⟨s.get r, rfl, by simpa [sourceFits, sourceAddr, wordInRange] using h,
        src_of_out rfl (by simpa [sourceFits, sourceAddr, wordInRange] using h)⟩

theorem src_eq_ok : src a s = .ok v ↔ sourceFits a s = true ∧ v = sourceValue a s := by
  rcases src_cases a s with ⟨h, e⟩ | ⟨x, hx, hn, e⟩
  · simp [h, e, eq_comm]
  · have : sourceFits a s = false := by simp [sourceFits, hx, wordInRange, Nat.not_lt.1 hn]
    simp [e, this]

@[simp] theorem dst_reg (r : Reg) : dst (.reg r) v s = .ok (s.set r v) := rfl

/-- A memory destination in range: the word is stored and nothing else changes (R114). -/
theorem dst_of_fits {x : Nat} (h : destAddr d s = some x) (hx : x + 1 < s.cfg.memSize) :
    dst d v s = .ok { s with mem := Memory.setWord s.mem x v } := by
  cases d <;> simp_all [dst, destAddr, writeWord]

/-- A memory destination out of range raises, and reports its address (R114, R56). -/
theorem dst_of_out {x : Nat} (h : destAddr d s = some x) (hx : ¬ x + 1 < s.cfg.memSize) :
    dst d v s = .error (.outOfBounds x .write .word) := by
  cases d <;> simp_all [dst, destAddr, writeWord]

/-- All a destination write can do. -/
theorem dst_cases (d : Dest) (v : Word) (s : State) :
    (∃ r, d = .reg r ∧ dst d v s = .ok (s.set r v)) ∨
    (∃ x : Word, destAddr d s = some x.toNat ∧ x.toNat + 1 < s.cfg.memSize ∧
      dst d v s = .ok { s with mem := Memory.setWord s.mem x.toNat v }) ∨
    ∃ x : Word, destAddr d s = some x.toNat ∧ ¬ x.toNat + 1 < s.cfg.memSize ∧
      dst d v s = .error (.outOfBounds x.toNat .write .word) := by
  cases d with
  | reg r => exact .inl ⟨r, rfl, rfl⟩
  | dir x =>
    by_cases h : x.toNat + 1 < s.cfg.memSize
    · exact .inr (.inl ⟨x, rfl, h, dst_of_fits rfl h⟩)
    · exact .inr (.inr ⟨x, rfl, h, dst_of_out rfl h⟩)
  | ind r =>
    by_cases h : (s.get r).toNat + 1 < s.cfg.memSize
    · exact .inr (.inl ⟨s.get r, rfl, h, dst_of_fits rfl h⟩)
    · exact .inr (.inr ⟨s.get r, rfl, h, dst_of_out rfl h⟩)

/-! ### The cycle -/

variable {i : Instr} {e : State → Except StopReason State}

theorem runCycle_of_ok (h : e (s.advance (instrLength i)) = .ok t) : runCycle i e s = .next t.commit := by
  simp [runCycle, h]

theorem runCycle_of_error {r : StopReason} (h : e (s.advance (instrLength i)) = .error r) :
    runCycle i e s = .next (stoppedAt s r (some (leadByte i))) := by
  simp [runCycle, h, takeStop_eq, stoppedAt]

/-- All a cycle after decode can do: commit what the effect made, or stop where it began (R110, R116). -/
theorem runCycle_cases (h : runCycle i e s = .next t) :
    (∃ u, e (s.advance (instrLength i)) = .ok u ∧ t = u.commit) ∨
    ∃ r, e (s.advance (instrLength i)) = .error r ∧ t = stoppedAt s r (some (leadByte i)) := by
  unfold runCycle at h
  split at h
  · next u hu => cases h; exact .inl ⟨u, hu, rfl⟩
  · next r hr => cases h; exact .inr ⟨r, hr, rfl⟩

/-! ### Every form is one cycle over its family's effect -/

theorem exec_movOf (a : Source) (d : Dest) (s : State) :
    exec (movOf a d) s = runCycle (movOf a d) (movEffect a d) s := by cases a <;> cases d <;> rfl

theorem exec_addOf (a b : Source) (s : State) :
    exec (addOf a b) s = runCycle (addOf a b) (addEffect a b) s := by cases a <;> cases b <;> rfl

theorem exec_jneOf (a b : Source) (s : State) :
    exec (jneOf a b) s = runCycle (jneOf a b) (jneEffect a b) s := by cases a <;> cases b <;> rfl

theorem exec_pshOf (a : Source) (s : State) : exec (pshOf a) s = runCycle (pshOf a) (pshEffect a) s := by
  cases a <;> rfl

theorem exec_popOf (d : Dest) (s : State) : exec (popOf d) s = runCycle (popOf d) (popEffect d) s := by
  cases d <;> rfl

theorem exec_calOf (a : Source) (s : State) : exec (calOf a) s = runCycle (calOf a) (calEffect a) s := by
  cases a <;> rfl

theorem exec_ret (s : State) : exec .ret s = runCycle .ret retEffect s := rfl

theorem exec_hlt (s : State) : exec .hlt s = haltCycle .hlt s := rfl

/-- Every instruction is a form of one of the eight families. -/
theorem instr_cases (i : Instr) :
    (∃ a d, i = movOf a d) ∨ (∃ a b, i = addOf a b) ∨ (∃ a b, i = jneOf a b) ∨ (∃ a, i = pshOf a) ∨
    (∃ d, i = popOf d) ∨ (∃ a, i = calOf a) ∨ i = .ret ∨ i = .hlt := by
  cases i with
  | movLR v r => exact .inl ⟨.lit v, .reg r, rfl⟩
  | movLD v x => exact .inl ⟨.lit v, .dir x, rfl⟩
  | movLI v r => exact .inl ⟨.lit v, .ind r, rfl⟩
  | movRR q r => exact .inl ⟨.reg q, .reg r, rfl⟩
  | movRD q x => exact .inl ⟨.reg q, .dir x, rfl⟩
  | movRI q r => exact .inl ⟨.reg q, .ind r, rfl⟩
  | movDR y r => exact .inl ⟨.dir y, .reg r, rfl⟩
  | movDD y x => exact .inl ⟨.dir y, .dir x, rfl⟩
  | movDI y r => exact .inl ⟨.dir y, .ind r, rfl⟩
  | movIR q r => exact .inl ⟨.ind q, .reg r, rfl⟩
  | movID q x => exact .inl ⟨.ind q, .dir x, rfl⟩
  | movII q r => exact .inl ⟨.ind q, .ind r, rfl⟩
  | addLL v w => exact .inr (.inl ⟨.lit v, .lit w, rfl⟩)
  | addLR v r => exact .inr (.inl ⟨.lit v, .reg r, rfl⟩)
  | addLD v x => exact .inr (.inl ⟨.lit v, .dir x, rfl⟩)
  | addLI v r => exact .inr (.inl ⟨.lit v, .ind r, rfl⟩)
  | addRL q w => exact .inr (.inl ⟨.reg q, .lit w, rfl⟩)
  | addRR q r => exact .inr (.inl ⟨.reg q, .reg r, rfl⟩)
  | addRD q x => exact .inr (.inl ⟨.reg q, .dir x, rfl⟩)
  | addRI q r => exact .inr (.inl ⟨.reg q, .ind r, rfl⟩)
  | addDL y w => exact .inr (.inl ⟨.dir y, .lit w, rfl⟩)
  | addDR y r => exact .inr (.inl ⟨.dir y, .reg r, rfl⟩)
  | addDD y x => exact .inr (.inl ⟨.dir y, .dir x, rfl⟩)
  | addDI y r => exact .inr (.inl ⟨.dir y, .ind r, rfl⟩)
  | addIL q w => exact .inr (.inl ⟨.ind q, .lit w, rfl⟩)
  | addIR q r => exact .inr (.inl ⟨.ind q, .reg r, rfl⟩)
  | addID q x => exact .inr (.inl ⟨.ind q, .dir x, rfl⟩)
  | addII q r => exact .inr (.inl ⟨.ind q, .ind r, rfl⟩)
  | jneLL v w => exact .inr (.inr (.inl ⟨.lit v, .lit w, rfl⟩))
  | jneLR v r => exact .inr (.inr (.inl ⟨.lit v, .reg r, rfl⟩))
  | jneLD v x => exact .inr (.inr (.inl ⟨.lit v, .dir x, rfl⟩))
  | jneLI v r => exact .inr (.inr (.inl ⟨.lit v, .ind r, rfl⟩))
  | jneRL q w => exact .inr (.inr (.inl ⟨.reg q, .lit w, rfl⟩))
  | jneRR q r => exact .inr (.inr (.inl ⟨.reg q, .reg r, rfl⟩))
  | jneRD q x => exact .inr (.inr (.inl ⟨.reg q, .dir x, rfl⟩))
  | jneRI q r => exact .inr (.inr (.inl ⟨.reg q, .ind r, rfl⟩))
  | jneDL y w => exact .inr (.inr (.inl ⟨.dir y, .lit w, rfl⟩))
  | jneDR y r => exact .inr (.inr (.inl ⟨.dir y, .reg r, rfl⟩))
  | jneDD y x => exact .inr (.inr (.inl ⟨.dir y, .dir x, rfl⟩))
  | jneDI y r => exact .inr (.inr (.inl ⟨.dir y, .ind r, rfl⟩))
  | jneIL q w => exact .inr (.inr (.inl ⟨.ind q, .lit w, rfl⟩))
  | jneIR q r => exact .inr (.inr (.inl ⟨.ind q, .reg r, rfl⟩))
  | jneID q x => exact .inr (.inr (.inl ⟨.ind q, .dir x, rfl⟩))
  | jneII q r => exact .inr (.inr (.inl ⟨.ind q, .ind r, rfl⟩))
  | pshL v => exact .inr (.inr (.inr (.inl ⟨.lit v, rfl⟩)))
  | pshR r => exact .inr (.inr (.inr (.inl ⟨.reg r, rfl⟩)))
  | pshD x => exact .inr (.inr (.inr (.inl ⟨.dir x, rfl⟩)))
  | pshI r => exact .inr (.inr (.inr (.inl ⟨.ind r, rfl⟩)))
  | popR r => exact .inr (.inr (.inr (.inr (.inl ⟨.reg r, rfl⟩))))
  | popD x => exact .inr (.inr (.inr (.inr (.inl ⟨.dir x, rfl⟩))))
  | popI r => exact .inr (.inr (.inr (.inr (.inl ⟨.ind r, rfl⟩))))
  | calL v => exact .inr (.inr (.inr (.inr (.inr (.inl ⟨.lit v, rfl⟩)))))
  | calR r => exact .inr (.inr (.inr (.inr (.inr (.inl ⟨.reg r, rfl⟩)))))
  | calD x => exact .inr (.inr (.inr (.inr (.inr (.inl ⟨.dir x, rfl⟩)))))
  | calI r => exact .inr (.inr (.inr (.inr (.inr (.inl ⟨.ind r, rfl⟩)))))
  | ret => exact .inr (.inr (.inr (.inr (.inr (.inr (.inl rfl))))))
  | hlt => exact .inr (.inr (.inr (.inr (.inr (.inr (.inr rfl))))))

/-! ### What each effect can do, when it raises nothing -/

theorem movEffect_eq_ok :
    movEffect a d s = .ok t ↔ sourceFits a s = true ∧ dst d (sourceValue a s) s = .ok t := by
  simp only [movEffect, bind_eq_ok, src_eq_ok]
  constructor
  · rintro ⟨v, ⟨h, rfl⟩, hd⟩; exact ⟨h, hd⟩
  · rintro ⟨h, hd⟩; exact ⟨_, ⟨h, rfl⟩, hd⟩

theorem addEffect_eq_ok :
    addEffect a b s = .ok t ↔ sourceFits a s = true ∧ sourceFits b s = true ∧
      t = s.set .acc (addWords (sourceValue a s) (sourceValue b s)) := by
  simp only [addEffect, bind_eq_ok, src_eq_ok, pure, Except.pure, Except.ok.injEq]
  constructor
  · rintro ⟨v, ⟨h, rfl⟩, w, ⟨h', rfl⟩, rfl⟩; exact ⟨h, h', rfl⟩
  · rintro ⟨h, h', rfl⟩; exact ⟨_, ⟨h, rfl⟩, _, ⟨h', rfl⟩, rfl⟩

theorem jneEffect_eq_ok :
    jneEffect a b s = .ok t ↔ sourceFits a s = true ∧ sourceFits b s = true ∧
      t = if differs s.acc (sourceValue b s) then s.set .ip (sourceValue a s) else s := by
  simp only [jneEffect, bind_eq_ok, src_eq_ok, pure, Except.pure, Except.ok.injEq]
  constructor
  · rintro ⟨v, ⟨h, rfl⟩, w, ⟨h', rfl⟩, rfl⟩; exact ⟨h, h', rfl⟩
  · rintro ⟨h, h', rfl⟩; exact ⟨_, ⟨h, rfl⟩, _, ⟨h', rfl⟩, rfl⟩

/-- All a push can do (R200). -/
theorem push_eq_ok :
    push v s = .ok t ↔ s.cfg.stackBottom + 2 ≤ s.sp.toNat ∧ s.sp.toNat ≤ s.cfg.memSize ∧
      t = { s with mem := Memory.setWord s.mem (s.sp.toNat - 2) v }.set .sp (s.sp - 2) := by
  unfold push
  split
  · simp; omega
  · simp only [bind_eq_ok, writeWord_eq_ok, pure, Except.pure, Except.ok.injEq]
    constructor
    · rintro ⟨u, ⟨h, rfl⟩, rfl⟩; exact ⟨by omega, by omega, rfl⟩
    · rintro ⟨h, h', rfl⟩; exact ⟨_, ⟨by omega, rfl⟩, rfl⟩

theorem pshEffect_eq_ok : pshEffect a s = .ok t ↔ sourceFits a s = true ∧ push (sourceValue a s) s = .ok t := by
  simp only [pshEffect, bind_eq_ok, src_eq_ok]
  constructor
  · rintro ⟨v, ⟨h, rfl⟩, hd⟩; exact ⟨h, hd⟩
  · rintro ⟨h, hd⟩; exact ⟨_, ⟨h, rfl⟩, hd⟩

/-- All a pop can do (R201). -/
theorem popEffect_eq_ok :
    popEffect d s = .ok t ↔ s.sp.toNat + 2 ≤ s.cfg.stackTop ∧ s.sp.toNat + 1 < s.cfg.memSize ∧
      ∃ u, dst d (s.wordAt s.sp.toNat) s = .ok u ∧ t = u.set .sp (u.sp + 2) := by
  unfold popEffect
  split
  · simp; omega
  · simp only [bind_eq_ok, readWord_eq_ok, pure, Except.pure, Except.ok.injEq]
    constructor
    · rintro ⟨v, ⟨h, rfl⟩, u, hu, rfl⟩; exact ⟨by omega, h, u, hu, rfl⟩
    · rintro ⟨h, h', u, hu, rfl⟩; exact ⟨_, ⟨h', rfl⟩, u, hu, rfl⟩

/-- The memory after CAL's six writes, in their order (R222). -/
def frameMem (s : State) : Memory :=
  Memory.setWord (Memory.setWord (Memory.setWord (Memory.setWord (Memory.setWord (Memory.setWord s.mem
    (s.sp.toNat - 2) s.r1) (s.sp.toNat - 4) s.r2) (s.sp.toNat - 6) s.r3) (s.sp.toNat - 8) s.r4)
    (s.sp.toNat - 10) s.ip) (s.sp.toNat - 12) (argCount s)

/-- All a call can do (R222). -/
theorem callTo_eq_ok :
    callTo v s = .ok t ↔ s.cfg.stackBottom + 12 ≤ s.sp.toNat ∧ s.sp.toNat ≤ s.cfg.memSize ∧
      t = (({ s with mem := frameMem s }.set .sp (s.sp - 12)).set .fp (s.sp - 12)).set .ip v := by
  unfold callTo
  split
  · simp; omega
  · simp only [bind_eq_ok, writeWord_eq_ok, pure, Except.pure, Except.ok.injEq]
    constructor
    · rintro ⟨_, ⟨h1, rfl⟩, _, ⟨h2, rfl⟩, _, ⟨h3, rfl⟩, _, ⟨h4, rfl⟩, _, ⟨h5, rfl⟩, _, ⟨h6, rfl⟩, rfl⟩
      exact ⟨by omega, by omega, rfl⟩
    · rintro ⟨h1, h2, rfl⟩
      refine ⟨_, ⟨?_, rfl⟩, _, ⟨?_, rfl⟩, _, ⟨?_, rfl⟩, _, ⟨?_, rfl⟩, _, ⟨?_, rfl⟩, _, ⟨?_, rfl⟩, rfl⟩ <;>
        (show _ < s.cfg.memSize; omega)

theorem calEffect_eq_ok : calEffect a s = .ok t ↔ sourceFits a s = true ∧ callTo (sourceValue a s) s = .ok t := by
  simp only [calEffect, bind_eq_ok, src_eq_ok]
  constructor
  · rintro ⟨v, ⟨h, rfl⟩, hd⟩; exact ⟨h, hd⟩
  · rintro ⟨h, hd⟩; exact ⟨_, ⟨h, rfl⟩, hd⟩

/-- `newSP` of R228: the integer `FP + 12 + 2n`, with `n` the count in the frame at FP. -/
def returnSp (s : State) : Nat := s.fp.toNat + 12 + 2 * (s.wordAt s.fp.toNat).toNat

/-- All a return can do (R228). -/
theorem retEffect_eq_ok :
    retEffect s = .ok t ↔ s.fp.toNat + 11 < s.cfg.memSize ∧ returnSp s ≤ s.cfg.stackTop ∧
      t = (((((((s.set .r1 (s.wordAt (s.fp.toNat + 10))).set .r2 (s.wordAt (s.fp.toNat + 8))).set .r3
        (s.wordAt (s.fp.toNat + 6))).set .r4 (s.wordAt (s.fp.toNat + 4))).set .ip
        (s.wordAt (s.fp.toNat + 2))).set .sp (BitVec.ofNat 16 (returnSp s))).set .fp
        (BitVec.ofNat 16 (returnSp s))) := by
  unfold retEffect
  split
  · simp [returnSp]; omega
  · simp only [bind_eq_ok, readWord_eq_ok]
    constructor
    · rintro ⟨_, ⟨h1, rfl⟩, _, ⟨h2, rfl⟩, _, ⟨h3, rfl⟩, _, ⟨h4, rfl⟩, _, ⟨h5, rfl⟩, _, ⟨h6, rfl⟩, h⟩
      split at h
      · simp at h
      · next hn => cases h; exact ⟨by omega, by simp only [returnSp]; omega, rfl⟩
    · rintro ⟨h1, h2, rfl⟩
      refine ⟨_, ⟨by omega, rfl⟩, _, ⟨by omega, rfl⟩, _, ⟨by omega, rfl⟩, _, ⟨by omega, rfl⟩,
        _, ⟨by omega, rfl⟩, _, ⟨by omega, rfl⟩, ?_⟩
      rw [if_neg (by simp only [returnSp] at h2; omega)]
      rfl

end Sys2Proof.Machine
end

