-- ==== Sys2Proof/Laws/Effects.lean ====
section
/-! SUPPORT. What no effect of this machine touches, and what every effect keeps, said once for all eight families; and
from it all that `exec` can do with any instruction. -/

namespace Sys2Proof.Machine

variable {a b : Source} {d : Dest} {v : Word}

/-- What every effect keeps: the run state, the stop record, the counter and the parameters are as before; memory keeps
its canonical form and its bound; and a raise is a fault, never the normal halt, at an address no higher than
0xFFFF. -/
structure EffectLaw (e : State → Except StopReason State) : Prop where
  ok : ∀ {s t : State}, e s = .ok t → t.run = s.run ∧ t.stop = s.stop ∧ t.cycles = s.cycles ∧ t.cfg = s.cfg ∧
    (Memory.wf s.mem → Memory.wf t.mem) ∧
    ((∀ c ∈ s.mem, c.1 < s.cfg.memSize) → ∀ c ∈ t.mem, c.1 < s.cfg.memSize)
  error : ∀ {s : State} {r : StopReason}, e s = .error r → r.isFault = true ∧
    (s.cfg.Valid → ∀ x dir w, r = .outOfBounds x dir w → x ≤ 0xFFFF)

theorem src_error {s : State} {r : StopReason} (h : src a s = .error r) :
    ∃ x : Word, r = .outOfBounds x.toNat .read .word := by
  rcases src_cases a s with ⟨-, e⟩ | ⟨x, -, -, e⟩
  · simp [e] at h
  · exact ⟨x, by simpa [e, eq_comm] using h⟩

theorem dst_error {s : State} {r : StopReason} (h : dst d v s = .error r) :
    ∃ x : Word, r = .outOfBounds x.toNat .write .word := by
  rcases dst_cases d v s with ⟨_, -, e⟩ | ⟨x, -, -, e⟩ | ⟨x, -, -, e⟩
  · simp [e] at h
  · simp [e] at h
  · exact ⟨x, by simpa [e, eq_comm] using h⟩

theorem readWord_error {s : State} {n : Nat} {r : StopReason} (h : readWord n s = .error r) :
    s.cfg.memSize ≤ n + 1 ∧ r = .outOfBounds n .read .word := by
  unfold readWord at h
  split at h
  · simp at h
  · exact ⟨by omega, by simpa [eq_comm] using h⟩

theorem writeWord_error {s : State} {n : Nat} {r : StopReason} (h : writeWord n v s = .error r) :
    s.cfg.memSize ≤ n + 1 ∧ r = .outOfBounds n .write .word := by
  unfold writeWord at h
  split at h
  · simp at h
  · exact ⟨by omega, by simpa [eq_comm] using h⟩

/-- A raise at a 16-bit address is a fault no higher than 0xFFFF. -/
theorem wordFault {r : StopReason} {dir : AccessDir} {p : Prop} (h : ∃ x : Word, r = .outOfBounds x.toNat dir .word) :
    r.isFault = true ∧ (p → ∀ x dir w, r = .outOfBounds x dir w → x ≤ 0xFFFF) := by
  obtain ⟨x, rfl⟩ := h
  refine ⟨rfl, fun _ y dir w h => ?_⟩
  cases h
  have := x.isLt
  omega

theorem dst_law : EffectLaw (dst d v) where
  ok {s t} h := by
    rcases dst_cases d v s with ⟨r, -, e⟩ | ⟨x, -, hx, e⟩ | ⟨x, -, -, e⟩
    · cases e.symm.trans h; simp
    · cases e.symm.trans h
      exact ⟨rfl, rfl, rfl, rfl, Memory.setWord_wf _ _, fun h => Memory.setWord_inRange _ h hx⟩
    · simp [e] at h
  error h := wordFault (dst_error h)

theorem movEffect_law : EffectLaw (movEffect a d) where
  ok h := dst_law.ok (movEffect_eq_ok.1 h).2
  error h := by
    rcases bind_eq_error.1 h with h | ⟨z, -, h⟩
    · exact wordFault (src_error h)
    · exact dst_law.error h

theorem addEffect_law : EffectLaw (addEffect a b) where
  ok h := by obtain ⟨-, -, rfl⟩ := addEffect_eq_ok.1 h; simp
  error h := by
    rcases bind_eq_error.1 h with h | ⟨z, -, h⟩
    · exact wordFault (src_error h)
    rcases bind_eq_error.1 h with h | ⟨z, -, h⟩
    · exact wordFault (src_error h)
    · simp [pure, Except.pure] at h

theorem jneEffect_law : EffectLaw (jneEffect a b) where
  ok h := by obtain ⟨-, -, rfl⟩ := jneEffect_eq_ok.1 h; split <;> simp
  error h := by
    rcases bind_eq_error.1 h with h | ⟨z, -, h⟩
    · exact wordFault (src_error h)
    rcases bind_eq_error.1 h with h | ⟨z, -, h⟩
    · exact wordFault (src_error h)
    · simp [pure, Except.pure] at h

theorem push_law : EffectLaw (push v) where
  ok {s t} h := by
    obtain ⟨h1, h2, rfl⟩ := push_eq_ok.1 h
    refine ⟨by simp, by simp, by simp, by simp, ?_, ?_⟩
    · simpa using Memory.setWord_wf _ _
    · simpa using fun h => Memory.setWord_inRange v h (by omega : s.sp.toNat - 2 + 1 < s.cfg.memSize)
  error {s r} h := by
    unfold push at h
    split at h
    · cases h; simp [StopReason.isFault]
    · rcases bind_eq_error.1 h with h | ⟨z, -, h⟩
      · obtain ⟨-, rfl⟩ := writeWord_error h
        refine ⟨rfl, fun _ x dir w h => ?_⟩
        cases h
        have := s.sp.isLt
        omega
      · simp [pure, Except.pure] at h

theorem pshEffect_law : EffectLaw (pshEffect a) where
  ok h := push_law.ok (pshEffect_eq_ok.1 h).2
  error h := by
    rcases bind_eq_error.1 h with h | ⟨z, -, h⟩
    · exact wordFault (src_error h)
    · exact push_law.error h

theorem popEffect_law : EffectLaw (popEffect d) where
  ok h := by
    obtain ⟨-, -, u, hu, rfl⟩ := popEffect_eq_ok.1 h
    simpa using dst_law.ok hu
  error {s r} h := by
    unfold popEffect at h
    split at h
    · cases h; simp [StopReason.isFault]
    rcases bind_eq_error.1 h with h | ⟨z, -, h⟩
    · exact wordFault ⟨s.sp, (readWord_error h).2⟩
    rcases bind_eq_error.1 h with h | ⟨z, -, h⟩
    · exact dst_law.error h
    · simp [pure, Except.pure] at h

/-- A raise of a write at a 16-bit address less a constant is a fault no higher than 0xFFFF. -/
theorem frameFault {s t : State} {n : Nat} {r : StopReason} {p : Prop} (h : writeWord (s.sp.toNat - n) v t = .error r) :
    r.isFault = true ∧ (p → ∀ x dir w, r = .outOfBounds x dir w → x ≤ 0xFFFF) := by
  obtain ⟨-, rfl⟩ := writeWord_error h
  refine ⟨rfl, fun _ x dir w h => ?_⟩
  cases h
  have := s.sp.isLt
  omega

theorem frameMem_wf {s : State} (h : Memory.wf s.mem) : Memory.wf (frameMem s) := by
  unfold frameMem
  repeat' apply Memory.setWord_wf
  exact h

theorem frameMem_inRange {s : State} (h : ∀ c ∈ s.mem, c.1 < s.cfg.memSize) (h1 : 12 ≤ s.sp.toNat)
    (h2 : s.sp.toNat ≤ s.cfg.memSize) : ∀ c ∈ frameMem s, c.1 < s.cfg.memSize := by
  unfold frameMem
  repeat' refine Memory.setWord_inRange _ ?_ (by omega)
  exact h

theorem callTo_law : EffectLaw (callTo v) where
  ok {s t} h := by
    obtain ⟨h1, h2, rfl⟩ := callTo_eq_ok.1 h
    refine ⟨by simp, by simp, by simp, by simp, ?_, ?_⟩
    · simpa using frameMem_wf
    · simpa using fun h => frameMem_inRange h (by omega) h2
  error {s r} h := by
    unfold callTo at h
    split at h
    · cases h; simp [StopReason.isFault]
    rcases bind_eq_error.1 h with h | ⟨z, -, h⟩
    · exact frameFault h
    rcases bind_eq_error.1 h with h | ⟨z, -, h⟩
    · exact frameFault h
    rcases bind_eq_error.1 h with h | ⟨z, -, h⟩
    · exact frameFault h
    rcases bind_eq_error.1 h with h | ⟨z, -, h⟩
    · exact frameFault h
    rcases bind_eq_error.1 h with h | ⟨z, -, h⟩
    · exact frameFault h
    rcases bind_eq_error.1 h with h | ⟨z, -, h⟩
    · exact frameFault h
    · simp [pure, Except.pure] at h

theorem calEffect_law : EffectLaw (calEffect a) where
  ok h := callTo_law.ok (calEffect_eq_ok.1 h).2
  error h := by
    rcases bind_eq_error.1 h with h | ⟨z, -, h⟩
    · exact wordFault (src_error h)
    · exact callTo_law.error h

/-- A raise of one of RET's six reads cannot happen with parameters in range, below `STACK_TOP` as they are. -/
theorem returnFault {s : State} {n : Nat} {r : StopReason} (h : readWord n s = .error r)
    (hn : n + 1 < s.fp.toNat + 12) (ht : ¬ s.cfg.stackTop < s.fp.toNat + 12) :
    r.isFault = true ∧ (s.cfg.Valid → ∀ x dir w, r = .outOfBounds x dir w → x ≤ 0xFFFF) := by
  obtain ⟨hm, rfl⟩ := readWord_error h
  refine ⟨rfl, fun hv x dir w h => ?_⟩
  cases h
  have := hv.2.1.1
  omega

theorem retEffect_law : EffectLaw retEffect where
  ok h := by obtain ⟨-, -, rfl⟩ := retEffect_eq_ok.1 h; simp
  error {s r} h := by
    unfold retEffect at h
    split at h
    · cases h; simp [StopReason.isFault]
    next ht =>
    rcases bind_eq_error.1 h with h | ⟨z, -, h⟩
    · exact returnFault h (by omega) ht
    rcases bind_eq_error.1 h with h | ⟨z, -, h⟩
    · exact returnFault h (by omega) ht
    rcases bind_eq_error.1 h with h | ⟨z, -, h⟩
    · exact returnFault h (by omega) ht
    rcases bind_eq_error.1 h with h | ⟨z, -, h⟩
    · exact returnFault h (by omega) ht
    rcases bind_eq_error.1 h with h | ⟨z, -, h⟩
    · exact returnFault h (by omega) ht
    rcases bind_eq_error.1 h with h | ⟨z, -, h⟩
    · exact returnFault h (by omega) ht
    dsimp only at h
    split at h
    · cases h; simp [StopReason.isFault]
    · simp [pure, Except.pure] at h

/-- Every instruction but HLT is one cycle over an effect with the law. -/
theorem exec_eq_runCycle (i : Instr) (h : i ≠ .hlt) :
    ∃ e, EffectLaw e ∧ ∀ s, exec i s = runCycle i e s := by
  rcases instr_cases i with ⟨a, d, rfl⟩ | ⟨a, b, rfl⟩ | ⟨a, b, rfl⟩ | ⟨a, rfl⟩ | ⟨d, rfl⟩ | ⟨a, rfl⟩ | rfl | rfl
  · exact ⟨_, movEffect_law, exec_movOf a d⟩
  · exact ⟨_, addEffect_law, exec_addOf a b⟩
  · exact ⟨_, jneEffect_law, exec_jneOf a b⟩
  · exact ⟨_, pshEffect_law, exec_pshOf a⟩
  · exact ⟨_, popEffect_law, exec_popOf d⟩
  · exact ⟨_, calEffect_law, exec_calOf a⟩
  · exact ⟨_, retEffect_law, exec_ret⟩
  · exact absurd rfl h

/-- All `exec` can do: stop where the cycle began with one of the three faults, halt by HLT, or commit what an effect
with the law made (R110, R116 to R118). -/
theorem exec_cases {i : Instr} {s t : State} (h : exec i s = .next t) :
    (∃ r, t = stoppedAt s r (some (leadByte i)) ∧ r.isFault = true ∧
      (s.cfg.Valid → ∀ x dir w, r = .outOfBounds x dir w → x ≤ 0xFFFF)) ∨
    (i = .hlt ∧ t = (s.advance 1).commit.halt .hltInstruction s.ip (some 0x80)) ∨
    (i ≠ .hlt ∧ ∃ u : State, t = u.commit ∧ u.run = s.run ∧ u.stop = s.stop ∧ u.cycles = s.cycles ∧ u.cfg = s.cfg ∧
      (Memory.wf s.mem → Memory.wf u.mem) ∧
      ((∀ c ∈ s.mem, c.1 < s.cfg.memSize) → ∀ c ∈ u.mem, c.1 < s.cfg.memSize)) := by
  by_cases hi : i = .hlt
  · subst hi
    cases h
    exact .inr (.inl ⟨rfl, rfl⟩)
  · obtain ⟨e, he, hr⟩ := exec_eq_runCycle i hi
    rw [hr] at h
    rcases runCycle_cases h with ⟨u, hu, rfl⟩ | ⟨r, hr, rfl⟩
    · exact .inr (.inr ⟨hi, u, rfl, (he.ok hu :)⟩)
    · exact .inl ⟨r, rfl, (he.error hr :)⟩

/-! ### The frame of a call -/

/-- The word a memory holds at `a` (R52). -/
def Memory.word (m : Memory) (a : Nat) : Word := wordOfBytes (Memory.get m a) (Memory.get m (a + 1))

theorem wordAt_eq_word (s : State) (n : Nat) : s.wordAt n = Memory.word s.mem n := rfl

theorem Memory.word_setWord_same {m : Memory} (n : Nat) (v : Word) (h : Memory.wf m) :
    Memory.word (Memory.setWord m n v) n = v := by
  rw [Memory.word, Memory.get_setWord_hi n v h, Memory.get_setWord_lo n v h, wordOfBytes_hi_lo]

theorem Memory.word_setWord_other {m : Memory} {n k : Nat} (v : Word) (h : Memory.wf m)
    (hk : k + 1 < n ∨ n + 1 < k) : Memory.word (Memory.setWord m n v) k = Memory.word m k := by
  rw [Memory.word, Memory.word, Memory.get_setWord_other v h (by omega) (by omega),
    Memory.get_setWord_other v h (by omega) (by omega)]

/-- The six words of the frame stand where R220 says. -/
theorem frameMem_words {s : State} (hw : Memory.wf s.mem) (h : 12 ≤ s.sp.toNat) :
    Memory.word (frameMem s) (s.sp.toNat - 2) = s.r1 ∧ Memory.word (frameMem s) (s.sp.toNat - 4) = s.r2 ∧
    Memory.word (frameMem s) (s.sp.toNat - 6) = s.r3 ∧ Memory.word (frameMem s) (s.sp.toNat - 8) = s.r4 ∧
    Memory.word (frameMem s) (s.sp.toNat - 10) = s.ip ∧
    Memory.word (frameMem s) (s.sp.toNat - 12) = argCount s := by
  have w1 := Memory.setWord_wf (s.sp.toNat - 2) s.r1 hw
  have w2 := Memory.setWord_wf (s.sp.toNat - 4) s.r2 w1
  have w3 := Memory.setWord_wf (s.sp.toNat - 6) s.r3 w2
  have w4 := Memory.setWord_wf (s.sp.toNat - 8) s.r4 w3
  have w5 := Memory.setWord_wf (s.sp.toNat - 10) s.ip w4
  unfold frameMem
  refine ⟨?_, ?_, ?_, ?_, ?_, ?_⟩
  · rw [Memory.word_setWord_other _ w5 (by omega), Memory.word_setWord_other _ w4 (by omega),
      Memory.word_setWord_other _ w3 (by omega), Memory.word_setWord_other _ w2 (by omega),
      Memory.word_setWord_other _ w1 (by omega), Memory.word_setWord_same _ _ hw]
  · rw [Memory.word_setWord_other _ w5 (by omega), Memory.word_setWord_other _ w4 (by omega),
      Memory.word_setWord_other _ w3 (by omega), Memory.word_setWord_other _ w2 (by omega),
      Memory.word_setWord_same _ _ w1]
  · rw [Memory.word_setWord_other _ w5 (by omega), Memory.word_setWord_other _ w4 (by omega),
      Memory.word_setWord_other _ w3 (by omega), Memory.word_setWord_same _ _ w2]
  · rw [Memory.word_setWord_other _ w5 (by omega), Memory.word_setWord_other _ w4 (by omega),
      Memory.word_setWord_same _ _ w3]
  · rw [Memory.word_setWord_other _ w5 (by omega), Memory.word_setWord_same _ _ w4]
  · rw [Memory.word_setWord_same _ _ w5]

/-- No byte outside the frame changes. -/
theorem frameMem_other {s : State} (hw : Memory.wf s.mem) (h : 12 ≤ s.sp.toNat) {n : Nat}
    (hn : n < s.sp.toNat - 12 ∨ s.sp.toNat ≤ n) : Memory.get (frameMem s) n = Memory.get s.mem n := by
  have w1 := Memory.setWord_wf (s.sp.toNat - 2) s.r1 hw
  have w2 := Memory.setWord_wf (s.sp.toNat - 4) s.r2 w1
  have w3 := Memory.setWord_wf (s.sp.toNat - 6) s.r3 w2
  have w4 := Memory.setWord_wf (s.sp.toNat - 8) s.r4 w3
  have w5 := Memory.setWord_wf (s.sp.toNat - 10) s.ip w4
  unfold frameMem
  rw [Memory.get_setWord_other _ w5 (by omega) (by omega), Memory.get_setWord_other _ w4 (by omega) (by omega),
    Memory.get_setWord_other _ w3 (by omega) (by omega), Memory.get_setWord_other _ w2 (by omega) (by omega),
    Memory.get_setWord_other _ w1 (by omega) (by omega), Memory.get_setWord_other _ hw (by omega) (by omega)]

/-- The argument count as a number: half the 16-bit distance from SP to FP (R221). -/
theorem argCount_toNat (s : State) : (argCount s).toNat = (s.fp.toNat + 65536 - s.sp.toNat) % 65536 / 2 := by
  have := s.sp.isLt
  have := s.fp.isLt
  simp only [argCount, BitVec.toNat_ushiftRight, BitVec.toNat_sub, Nat.shiftRight_eq_div_pow]
  omega

end Sys2Proof.Machine
end

