-- ==== Sys2Proof/Laws/Fetch.lean ====
section
/-! SUPPORT. What the decoder sees of memory: the window at IP is as long as memory allows and holds memory's bytes. -/

namespace Sys2Proof.Machine

variable (s : State)

/-- The window ends where memory ends (R57). -/
theorem fetchWindow_length (n a : Nat) : (fetchWindow s a n).length = min n (s.cfg.memSize - a) := by
  induction n generalizing a with
  | zero => simp [fetchWindow]
  | succ n ih =>
    unfold fetchWindow readByte
    by_cases h : a < s.cfg.memSize
    · simp [h, ih]; omega
    · simp [h]; omega

/-- Each byte of the window is memory's byte at that address (R88). -/
theorem fetchWindow_get {n a k : Nat} (hk : k < n) (hm : a + k < s.cfg.memSize) :
    (fetchWindow s a n)[k]? = some (s.byteAt (a + k)) := by
  induction n generalizing a k with
  | zero => omega
  | succ n ih =>
    have h : a < s.cfg.memSize := by omega
    unfold fetchWindow readByte
    simp only [h, if_true]
    cases k with
    | zero => simp
    | succ k =>
      rw [List.getElem?_cons_succ, ih (by omega) (by omega)]
      congr 2
      omega

/-- The leading byte in a stop record is memory's byte at IP (R31). -/
theorem fetchedLead_of_lt (h : s.ip.toNat < s.cfg.memSize) : fetchedLead s = some (s.byteAt s.ip.toNat) := by
  have := fetchWindow_get s (n := 5) (a := s.ip.toNat) (k := 0) (by omega) (by omega)
  rw [fetchedLead, List.head?_eq_getElem?, this, Nat.add_zero]

/-- The instruction decoded at IP has memory's byte at IP as its leading byte, which is therefore inside memory. -/
theorem leadByte_of_fetch {i : Instr} (h : decode (fetchWindow s s.ip.toNat 5) = .instr i) :
    s.ip.toNat < s.cfg.memSize ∧ leadByte i = s.byteAt s.ip.toNat := by
  unfold fetchWindow readByte at h
  by_cases hm : s.ip.toNat < s.cfg.memSize
  · rw [if_pos hm] at h
    exact ⟨hm, leadByte_of_decode h⟩
  · rw [if_neg hm] at h
    cases h

/-- IP outside memory leaves no leading byte to record (R31). -/
theorem fetchedLead_of_ge (h : s.cfg.memSize ≤ s.ip.toNat) : fetchedLead s = none := by
  have := fetchWindow_length s 5 s.ip.toNat
  rw [fetchedLead, List.head?_eq_none_iff, ← List.length_eq_zero_iff]
  omega

/-- All a step can do: run the decoded instruction, or take the stop the decoder answers (R110, R116, R117). -/
theorem step_cases {s t : State} (h : step s = .next t) :
    s.run = .running ∧
    ((∃ i, decode (fetchWindow s s.ip.toNat 5) = .instr i ∧ exec i s = .next t) ∨
     (∃ off b, decode (fetchWindow s s.ip.toNat 5) = .illegal off b ∧
        t = stoppedAt s (.illegalOpcode (s.ip.toNat + off) b) (fetchedLead s)) ∨
     ∃ off w, decode (fetchWindow s s.ip.toNat 5) = .cut off w ∧
        t = stoppedAt s (.outOfBounds (s.ip.toNat + off) .read w) (fetchedLead s)) := by
  unfold step at h
  cases hr : s.run with
  | halted => simp [hr] at h
  | running =>
    refine ⟨rfl, ?_⟩
    simp only [hr] at h
    unfold fetch at h
    cases hd : decode (fetchWindow s s.ip.toNat 5) with
    | instr i => simp only [hd] at h; exact .inl ⟨i, rfl, h⟩
    | illegal off b =>
      simp only [hd, decodeStop] at h
      cases h
      exact .inr (.inl ⟨off, b, rfl, rfl⟩)
    | cut off w =>
      simp only [hd, decodeStop] at h
      cases h
      exact .inr (.inr ⟨off, w, rfl, rfl⟩)

end Sys2Proof.Machine
end

