-- ==== Sys2Proof/Laws/HostMoves.lean ====
section
/-! SUPPORT. What the loaders do to memory: the host's load of an image, and the placing of an instruction at IP. -/

namespace Sys2Proof.Machine

/-- Everything the load of an image that fits does: nothing but memory changes, memory keeps its canonical form and its
bound, the image stands at `a`, and every other byte is as before (R268, R282). -/
theorem loadImage_of_fits {bs : List Byte} {a : Nat} {s : State} (hw : Memory.wf s.mem)
    (hr : ∀ c ∈ s.mem, c.1 < s.cfg.memSize) (h : a + bs.length ≤ s.cfg.memSize) :
    ∃ m, loadImage a bs s = .ok { s with mem := m } ∧ Memory.wf m ∧ (∀ c ∈ m, c.1 < s.cfg.memSize) ∧
      (∀ x, x < a ∨ a + bs.length ≤ x → Memory.get m x = Memory.get s.mem x) ∧
      ∀ k, k < bs.length → bs[k]? = some (Memory.get m (a + k)) := by
  induction bs generalizing a s with
  | nil => exact ⟨s.mem, rfl, hw, hr, fun _ _ => rfl, by simp⟩
  | cons b bs ih =>
    have ha : a < s.cfg.memSize := by simp at h; omega
    have hl : a + 1 + bs.length ≤ s.cfg.memSize := by simp at h; omega
    obtain ⟨m, h1, h2, h3, h4, h5⟩ := ih (s := { s with mem := Memory.set s.mem a b }) (a := a + 1)
      (Memory.set_wf _ _ hw) (Memory.set_inRange _ hr ha) hl
    refine ⟨m, ?_, h2, h3, fun x hx => ?_, fun k hk => ?_⟩
    · simp only [loadImage, writeByte, ha, if_true, ok_bind]
      exact h1
    · rw [h4 x (by simp at hx; omega)]
      exact Memory.get_set_other _ hw (by simp at hx; omega)
    · cases k with
      | zero =>
        rw [Nat.add_zero, h4 a (by omega)]
        exact congrArg some (Memory.get_set_same _ _ hw).symm
      | succ k =>
        rw [List.getElem?_cons_succ, h5 k (by simpa using hk)]
        congr 2
        omega

/-- Placing bytes that fit at `a` is the load of an image there. -/
theorem placeBytes_of_fits {bs : List Byte} {a : Nat} {s : State} (h : a + bs.length ≤ s.cfg.memSize) :
    loadImage a bs s = .ok (placeBytes a bs s) := by
  induction bs generalizing a s with
  | nil => rfl
  | cons b bs ih =>
    have ha : a < s.cfg.memSize := by simp at h; omega
    have hl : a + 1 + bs.length ≤ s.cfg.memSize := by simp at h; omega
    simp only [loadImage, placeBytes, writeByte, ha, if_true, ok_bind]
    exact ih hl

end Sys2Proof.Machine
end

