-- ==== Sys2Proof/Laws/PerInstr.lean ====
section
/-! SUPPORT. The family of laws stated per instruction: the bytes the encoder gives are a well-formed image, that is
their leading byte is assigned with admitted modes, their number is the one the leading byte asks for, and every
register payload names a register (spec/30_encoding.md rules R82 to R86, R90). -/

namespace Sys2Proof.Laws.EncodingShape

def Statement (i : Instr) : Prop := Image.wf ⟨leadByte i, payloadBytes i⟩ = true

/-- A register's number is at most 7 (R21). -/
theorem regByte_le (r : Reg) : (regByte r).toNat ≤ 7 := by cases r <;> decide

/-- An image is well formed when its leading byte is assigned, and asks for these modes, this length and these
payloads. -/
theorem wf_of {b0 : Byte} {bs : List Byte} (ms : List Mode) (n : Nat)
    (h : (leadAssigned b0 && operandModes b0 == ms && lengthOfLead b0 == n) = true)
    (h1 : bs.length + 1 = n) (h2 : registersNamed ms bs = true) : Image.wf ⟨b0, bs⟩ = true := by
  simp only [leadAssigned, Bool.and_eq_true, beq_iff_eq] at h
  simp only [Image.wf, Image.lengthRight, Bool.and_eq_true, beq_iff_eq, h.1.2, h.2]
  exact ⟨⟨⟨h.1.1.1, h.1.1.2⟩, h1⟩, h2⟩

theorem movLR (immA : Word) (rb : Reg) : Statement (.movLR immA rb) :=
  wf_of (b0 := 0x11#8) [.lit, .reg] 4 (by decide) rfl (by simp [payloadBytes, registersNamed, regByte_le])

theorem movLD (immA : Word) (addrB : Word) : Statement (.movLD immA addrB) :=
  wf_of (b0 := 0x12#8) [.lit, .dir] 5 (by decide) rfl rfl

theorem movLI (immA : Word) (rb : Reg) : Statement (.movLI immA rb) :=
  wf_of (b0 := 0x13#8) [.lit, .ind] 4 (by decide) rfl (by simp [payloadBytes, registersNamed, regByte_le])

theorem movRR (ra : Reg) (rb : Reg) : Statement (.movRR ra rb) :=
  wf_of (b0 := 0x15#8) [.reg, .reg] 3 (by decide) rfl (by simp [payloadBytes, registersNamed, regByte_le])

theorem movRD (ra : Reg) (addrB : Word) : Statement (.movRD ra addrB) :=
  wf_of (b0 := 0x16#8) [.reg, .dir] 4 (by decide) rfl (by simp [payloadBytes, registersNamed, regByte_le])

theorem movRI (ra : Reg) (rb : Reg) : Statement (.movRI ra rb) :=
  wf_of (b0 := 0x17#8) [.reg, .ind] 3 (by decide) rfl (by simp [payloadBytes, registersNamed, regByte_le])

theorem movDR (addrA : Word) (rb : Reg) : Statement (.movDR addrA rb) :=
  wf_of (b0 := 0x19#8) [.dir, .reg] 4 (by decide) rfl (by simp [payloadBytes, registersNamed, regByte_le])

theorem movDD (addrA : Word) (addrB : Word) : Statement (.movDD addrA addrB) :=
  wf_of (b0 := 0x1A#8) [.dir, .dir] 5 (by decide) rfl rfl

theorem movDI (addrA : Word) (rb : Reg) : Statement (.movDI addrA rb) :=
  wf_of (b0 := 0x1B#8) [.dir, .ind] 4 (by decide) rfl (by simp [payloadBytes, registersNamed, regByte_le])

theorem movIR (ra : Reg) (rb : Reg) : Statement (.movIR ra rb) :=
  wf_of (b0 := 0x1D#8) [.ind, .reg] 3 (by decide) rfl (by simp [payloadBytes, registersNamed, regByte_le])

theorem movID (ra : Reg) (addrB : Word) : Statement (.movID ra addrB) :=
  wf_of (b0 := 0x1E#8) [.ind, .dir] 4 (by decide) rfl (by simp [payloadBytes, registersNamed, regByte_le])

theorem movII (ra : Reg) (rb : Reg) : Statement (.movII ra rb) :=
  wf_of (b0 := 0x1F#8) [.ind, .ind] 3 (by decide) rfl (by simp [payloadBytes, registersNamed, regByte_le])

theorem addLL (immA : Word) (immB : Word) : Statement (.addLL immA immB) :=
  wf_of (b0 := 0x20#8) [.lit, .lit] 5 (by decide) rfl rfl

theorem addLR (immA : Word) (rb : Reg) : Statement (.addLR immA rb) :=
  wf_of (b0 := 0x21#8) [.lit, .reg] 4 (by decide) rfl (by simp [payloadBytes, registersNamed, regByte_le])

theorem addLD (immA : Word) (addrB : Word) : Statement (.addLD immA addrB) :=
  wf_of (b0 := 0x22#8) [.lit, .dir] 5 (by decide) rfl rfl

theorem addLI (immA : Word) (rb : Reg) : Statement (.addLI immA rb) :=
  wf_of (b0 := 0x23#8) [.lit, .ind] 4 (by decide) rfl (by simp [payloadBytes, registersNamed, regByte_le])

theorem addRL (ra : Reg) (immB : Word) : Statement (.addRL ra immB) :=
  wf_of (b0 := 0x24#8) [.reg, .lit] 4 (by decide) rfl (by simp [payloadBytes, registersNamed, regByte_le])

theorem addRR (ra : Reg) (rb : Reg) : Statement (.addRR ra rb) :=
  wf_of (b0 := 0x25#8) [.reg, .reg] 3 (by decide) rfl (by simp [payloadBytes, registersNamed, regByte_le])

theorem addRD (ra : Reg) (addrB : Word) : Statement (.addRD ra addrB) :=
  wf_of (b0 := 0x26#8) [.reg, .dir] 4 (by decide) rfl (by simp [payloadBytes, registersNamed, regByte_le])

theorem addRI (ra : Reg) (rb : Reg) : Statement (.addRI ra rb) :=
  wf_of (b0 := 0x27#8) [.reg, .ind] 3 (by decide) rfl (by simp [payloadBytes, registersNamed, regByte_le])

theorem addDL (addrA : Word) (immB : Word) : Statement (.addDL addrA immB) :=
  wf_of (b0 := 0x28#8) [.dir, .lit] 5 (by decide) rfl rfl

theorem addDR (addrA : Word) (rb : Reg) : Statement (.addDR addrA rb) :=
  wf_of (b0 := 0x29#8) [.dir, .reg] 4 (by decide) rfl (by simp [payloadBytes, registersNamed, regByte_le])

theorem addDD (addrA : Word) (addrB : Word) : Statement (.addDD addrA addrB) :=
  wf_of (b0 := 0x2A#8) [.dir, .dir] 5 (by decide) rfl rfl

theorem addDI (addrA : Word) (rb : Reg) : Statement (.addDI addrA rb) :=
  wf_of (b0 := 0x2B#8) [.dir, .ind] 4 (by decide) rfl (by simp [payloadBytes, registersNamed, regByte_le])

theorem addIL (ra : Reg) (immB : Word) : Statement (.addIL ra immB) :=
  wf_of (b0 := 0x2C#8) [.ind, .lit] 4 (by decide) rfl (by simp [payloadBytes, registersNamed, regByte_le])

theorem addIR (ra : Reg) (rb : Reg) : Statement (.addIR ra rb) :=
  wf_of (b0 := 0x2D#8) [.ind, .reg] 3 (by decide) rfl (by simp [payloadBytes, registersNamed, regByte_le])

theorem addID (ra : Reg) (addrB : Word) : Statement (.addID ra addrB) :=
  wf_of (b0 := 0x2E#8) [.ind, .dir] 4 (by decide) rfl (by simp [payloadBytes, registersNamed, regByte_le])

theorem addII (ra : Reg) (rb : Reg) : Statement (.addII ra rb) :=
  wf_of (b0 := 0x2F#8) [.ind, .ind] 3 (by decide) rfl (by simp [payloadBytes, registersNamed, regByte_le])

theorem jneLL (immA : Word) (immB : Word) : Statement (.jneLL immA immB) :=
  wf_of (b0 := 0x30#8) [.lit, .lit] 5 (by decide) rfl rfl

theorem jneLR (immA : Word) (rb : Reg) : Statement (.jneLR immA rb) :=
  wf_of (b0 := 0x31#8) [.lit, .reg] 4 (by decide) rfl (by simp [payloadBytes, registersNamed, regByte_le])

theorem jneLD (immA : Word) (addrB : Word) : Statement (.jneLD immA addrB) :=
  wf_of (b0 := 0x32#8) [.lit, .dir] 5 (by decide) rfl rfl

theorem jneLI (immA : Word) (rb : Reg) : Statement (.jneLI immA rb) :=
  wf_of (b0 := 0x33#8) [.lit, .ind] 4 (by decide) rfl (by simp [payloadBytes, registersNamed, regByte_le])

theorem jneRL (ra : Reg) (immB : Word) : Statement (.jneRL ra immB) :=
  wf_of (b0 := 0x34#8) [.reg, .lit] 4 (by decide) rfl (by simp [payloadBytes, registersNamed, regByte_le])

theorem jneRR (ra : Reg) (rb : Reg) : Statement (.jneRR ra rb) :=
  wf_of (b0 := 0x35#8) [.reg, .reg] 3 (by decide) rfl (by simp [payloadBytes, registersNamed, regByte_le])

theorem jneRD (ra : Reg) (addrB : Word) : Statement (.jneRD ra addrB) :=
  wf_of (b0 := 0x36#8) [.reg, .dir] 4 (by decide) rfl (by simp [payloadBytes, registersNamed, regByte_le])

theorem jneRI (ra : Reg) (rb : Reg) : Statement (.jneRI ra rb) :=
  wf_of (b0 := 0x37#8) [.reg, .ind] 3 (by decide) rfl (by simp [payloadBytes, registersNamed, regByte_le])

theorem jneDL (addrA : Word) (immB : Word) : Statement (.jneDL addrA immB) :=
  wf_of (b0 := 0x38#8) [.dir, .lit] 5 (by decide) rfl rfl

theorem jneDR (addrA : Word) (rb : Reg) : Statement (.jneDR addrA rb) :=
  wf_of (b0 := 0x39#8) [.dir, .reg] 4 (by decide) rfl (by simp [payloadBytes, registersNamed, regByte_le])

theorem jneDD (addrA : Word) (addrB : Word) : Statement (.jneDD addrA addrB) :=
  wf_of (b0 := 0x3A#8) [.dir, .dir] 5 (by decide) rfl rfl

theorem jneDI (addrA : Word) (rb : Reg) : Statement (.jneDI addrA rb) :=
  wf_of (b0 := 0x3B#8) [.dir, .ind] 4 (by decide) rfl (by simp [payloadBytes, registersNamed, regByte_le])

theorem jneIL (ra : Reg) (immB : Word) : Statement (.jneIL ra immB) :=
  wf_of (b0 := 0x3C#8) [.ind, .lit] 4 (by decide) rfl (by simp [payloadBytes, registersNamed, regByte_le])

theorem jneIR (ra : Reg) (rb : Reg) : Statement (.jneIR ra rb) :=
  wf_of (b0 := 0x3D#8) [.ind, .reg] 3 (by decide) rfl (by simp [payloadBytes, registersNamed, regByte_le])

theorem jneID (ra : Reg) (addrB : Word) : Statement (.jneID ra addrB) :=
  wf_of (b0 := 0x3E#8) [.ind, .dir] 4 (by decide) rfl (by simp [payloadBytes, registersNamed, regByte_le])

theorem jneII (ra : Reg) (rb : Reg) : Statement (.jneII ra rb) :=
  wf_of (b0 := 0x3F#8) [.ind, .ind] 3 (by decide) rfl (by simp [payloadBytes, registersNamed, regByte_le])

theorem pshL (immA : Word) : Statement (.pshL immA) :=
  wf_of (b0 := 0x40#8) [.lit] 3 (by decide) rfl rfl

theorem pshR (ra : Reg) : Statement (.pshR ra) :=
  wf_of (b0 := 0x44#8) [.reg] 2 (by decide) rfl (by simp [payloadBytes, registersNamed, regByte_le])

theorem pshD (addrA : Word) : Statement (.pshD addrA) :=
  wf_of (b0 := 0x48#8) [.dir] 3 (by decide) rfl rfl

theorem pshI (ra : Reg) : Statement (.pshI ra) :=
  wf_of (b0 := 0x4C#8) [.ind] 2 (by decide) rfl (by simp [payloadBytes, registersNamed, regByte_le])

theorem popR (ra : Reg) : Statement (.popR ra) :=
  wf_of (b0 := 0x54#8) [.reg] 2 (by decide) rfl (by simp [payloadBytes, registersNamed, regByte_le])

theorem popD (addrA : Word) : Statement (.popD addrA) :=
  wf_of (b0 := 0x58#8) [.dir] 3 (by decide) rfl rfl

theorem popI (ra : Reg) : Statement (.popI ra) :=
  wf_of (b0 := 0x5C#8) [.ind] 2 (by decide) rfl (by simp [payloadBytes, registersNamed, regByte_le])

theorem calL (immA : Word) : Statement (.calL immA) :=
  wf_of (b0 := 0x60#8) [.lit] 3 (by decide) rfl rfl

theorem calR (ra : Reg) : Statement (.calR ra) :=
  wf_of (b0 := 0x64#8) [.reg] 2 (by decide) rfl (by simp [payloadBytes, registersNamed, regByte_le])

theorem calD (addrA : Word) : Statement (.calD addrA) :=
  wf_of (b0 := 0x68#8) [.dir] 3 (by decide) rfl rfl

theorem calI (ra : Reg) : Statement (.calI ra) :=
  wf_of (b0 := 0x6C#8) [.ind] 2 (by decide) rfl (by simp [payloadBytes, registersNamed, regByte_le])

theorem ret : Statement .ret :=
  wf_of (b0 := 0x70#8) [] 1 (by decide) rfl rfl

theorem hlt : Statement .hlt :=
  wf_of (b0 := 0x80#8) [] 1 (by decide) rfl rfl

end Sys2Proof.Laws.EncodingShape
end

