-- ==== Sys2Proof/Tests/Slice0.lean ====
section
/-! SUPPORT. Tests: what WellFormed refuses, the words of every instruction written out from the encodings of
spec/41_mov.md to 46_hlt.md, one step of every instruction on the Example of its rule and some vectors of
spec/95_test_vectors.md (their ids are in the comments), and, for each obligation with hypotheses, states and operands
that meet them. The expected values are the spec's. -/

namespace Sys2Proof.Tests

open Sys2Proof Sys2Proof.Machine

/-! ### Helpers -/

/-- Memory with `code` from address 0 on and these words, addresses rising; zero bytes are not listed. -/
def cells (code : List Byte) (words : List (Nat × Word)) : Memory :=
  ((code.zipIdx.map fun p => (p.2, p.1)) ++
    words.flatMap fun p => [(p.1, BitVec.ofNat 8 (p.2.toNat / 256)), (p.1 + 1, BitVec.ofNat 8 p.2.toNat)]).filter
    fun c => c.2 != 0

/-- The next state, where there is one. -/
def after (o : Host.Outcome State Fault Refusal) : Option State :=
  match o with
  | .next t => some t
  | .fault _ => none
  | .refused _ => none

/-- One step of `s` ends in exactly the state `f` makes of `s`: every field is compared. -/
abbrev stepsTo (s : State) (f : State → State) : Prop := after (step s) = some (f s)

/-- One step of `s` stops there with this reason and leading byte, and changes nothing else. -/
abbrev stopsWith (s : State) (reason : StopReason) (opcode : Option Byte) : Prop :=
  stepsTo s fun s => { s with run := .halted, stop := some ⟨reason, s.ip, opcode, s.cycles⟩ }

/-- The memory of the examples of 41_mov.md. -/
def movMem (code : List Byte) (w : Word) : Memory := cells code [(0x0100, 0x1234), (0x0102, w)]

/-- The state before the examples of 41_mov.md. -/
def movState (code : List Byte) (w : Word) : State :=
  { State.reset with r1 := 0x0100, r2 := 0x0102, mem := movMem code w }

/-- The state before the examples of 42_add.md. -/
def addState (code : List Byte) : State :=
  { State.reset with r1 := 0x0100, r2 := 0x0102, mem := cells code [(0x0100, 0xFFF0), (0x0102, 0x0020)] }

/-- The state before the examples of 43_jne.md. -/
def jneState (code : List Byte) (acc : Word) : State :=
  { State.reset with
    acc := acc, r1 := 0x0100, r2 := 0x0102, mem := cells code [(0x0100, 0x0040), (0x0102, 0x0007)] }

/-- The memory of the examples of 44_psh_pop.md. -/
def stackMem (code : List Byte) (w : Word) (stack : List (Nat × Word)) : Memory :=
  cells code ([(0x0100, 0x1234), (0x0102, w)] ++ stack)

/-- The state before the PSH examples of 44_psh_pop.md. -/
def pshState (code : List Byte) : State :=
  { State.reset with r1 := 0x0100, r2 := 0x0102, mem := stackMem code 0xABCD [] }

/-- The state before the POP examples of 44_psh_pop.md. -/
def popState (code : List Byte) : State :=
  { State.reset with r1 := 0x0100, r2 := 0x0102, sp := 0xFFFC, mem := stackMem code 0xABCD [(0xFFFC, 0xBEEF)] }

/-- The memory of the CAL examples of 45_cal_ret.md. -/
def calMem (code : List Byte) (frame : List (Nat × Word)) : Memory :=
  cells code ([(0x0100, 0x0040)] ++ frame ++ [(0xFFFA, 0xBBBB), (0xFFFC, 0xAAAA)])

/-- The state before the CAL examples of 45_cal_ret.md. -/
def calState (code : List Byte) : State :=
  { State.reset with r1 := 0x0100, r2 := 0x0102, r3 := 0x3333, r4 := 0x4444, sp := 0xFFFA, mem := calMem code [] }

/-- The state after reset with this code and SP. -/
def spState (code : List Byte) (sp : Word) : State := { State.reset with sp := sp, mem := cells code [] }

/-- The state after reset with this code at the end of memory, at `ip`. -/
def endState (ip : Word) (code : List Byte) : State :=
  { State.reset with ip := ip, mem := (code.zipIdx.map fun p => (ip.toNat + p.2, p.1)).filter fun c => c.2 != 0 }

/-- The state the effect of `i` sees. -/
abbrev past (i : Instr) (s : State) : State := s.advance (instrLength i)

/-- The parameters of a small memory (T-STK-19, T-CAL-16). -/
def smallConfig : Config := { memSize := 0x8000, stackTop := 0x8000 }

/-! ### WellFormed refuses, check by check -/

/-- R82: operation 0x0 and operations 0x9 to 0xF are unassigned. -/
theorem test_opAssigned_refuses :
    Image.opAssigned ⟨0x00, []⟩ = false ∧ Image.wf ⟨0x00, []⟩ = false ∧
    Image.opAssigned ⟨0x95, [0x02, 0x03]⟩ = false ∧ Image.wf ⟨0x95, [0x02, 0x03]⟩ = false ∧
    Image.wf ⟨0xF0, []⟩ = false := by decide

/-- R85: a literal destination (0x14, 0x50), a mode field of an operand the operation does not have (0x41, 0x71,
0x84). -/
theorem test_modesAdmitted_refuses :
    Image.modesAdmitted ⟨0x14, []⟩ = false ∧ Image.wf ⟨0x14, [0x02, 0x00, 0x05]⟩ = false ∧
    Image.modesAdmitted ⟨0x50, []⟩ = false ∧ Image.modesAdmitted ⟨0x41, []⟩ = false ∧
    Image.modesAdmitted ⟨0x71, []⟩ = false ∧ Image.modesAdmitted ⟨0x84, []⟩ = false := by decide

/-- R84, R86: one payload byte too few, one too many. -/
theorem test_lengthRight_refuses :
    Image.lengthRight ⟨0x15, [0x02]⟩ = false ∧ Image.wf ⟨0x15, [0x02]⟩ = false ∧
    Image.lengthRight ⟨0x80, [0x00]⟩ = false ∧ Image.wf ⟨0x80, [0x00]⟩ = false := by decide

/-- R90: register byte 8 in operand A and in operand B. -/
theorem test_registersNamed_refuses :
    registersNamed (operandModes 0x15) [0x08, 0x02] = false ∧ Image.wf ⟨0x15, [0x08, 0x02]⟩ = false ∧
    registersNamed (operandModes 0x11) [0x12, 0x34, 0x08] = false ∧ Image.wf ⟨0x11, [0x12, 0x34, 0x08]⟩ = false ∧
    Image.wf ⟨0x11, [0x12, 0x34, 0x07]⟩ = true := by decide

/-- R4: each parameter just outside its range. -/
theorem test_Config_Valid_refuses :
    ¬ Config.Valid { memSize := 1 } ∧ ¬ Config.Valid { memSize := 65537 } ∧
    ¬ Config.Valid { memSize := 0x8000, stackTop := 0x8001 } ∧ ¬ Config.Valid { stackTop := 0x10000 } ∧
    ¬ Config.Valid { stackBottom := 0xFFFF } ∧ ¬ Config.Valid { loadBase := 0x10000 } := by decide

/-! ### Decode: the words of every instruction, written out from its rule's Example -/

/-- R141 to R152. -/
theorem test_decode_mov :
    decode [0x11, 0x12, 0x34, 0x03] = .instr (.movLR 0x1234 .r2) ∧
    decode [0x12, 0x12, 0x34, 0x01, 0x02] = .instr (.movLD 0x1234 0x0102) ∧
    decode [0x13, 0x12, 0x34, 0x03] = .instr (.movLI 0x1234 .r2) ∧
    decode [0x15, 0x02, 0x03] = .instr (.movRR .r1 .r2) ∧
    decode [0x16, 0x02, 0x01, 0x02] = .instr (.movRD .r1 0x0102) ∧
    decode [0x17, 0x02, 0x03] = .instr (.movRI .r1 .r2) ∧
    decode [0x19, 0x01, 0x00, 0x03] = .instr (.movDR 0x0100 .r2) ∧
    decode [0x1A, 0x01, 0x00, 0x01, 0x02] = .instr (.movDD 0x0100 0x0102) ∧
    decode [0x1B, 0x01, 0x00, 0x03] = .instr (.movDI 0x0100 .r2) ∧
    decode [0x1D, 0x02, 0x03] = .instr (.movIR .r1 .r2) ∧
    decode [0x1E, 0x02, 0x01, 0x02] = .instr (.movID .r1 0x0102) ∧
    decode [0x1F, 0x02, 0x03] = .instr (.movII .r1 .r2) := by decide

/-- R162 to R177. -/
theorem test_decode_add :
    decode [0x20, 0xFF, 0xFF, 0x00, 0x01] = .instr (.addLL 0xFFFF 0x0001) ∧
    decode [0x21, 0x12, 0x34, 0x03] = .instr (.addLR 0x1234 .r2) ∧
    decode [0x22, 0x12, 0x34, 0x01, 0x02] = .instr (.addLD 0x1234 0x0102) ∧
    decode [0x23, 0x12, 0x34, 0x03] = .instr (.addLI 0x1234 .r2) ∧
    decode [0x24, 0x02, 0x00, 0x01] = .instr (.addRL .r1 0x0001) ∧
    decode [0x25, 0x02, 0x03] = .instr (.addRR .r1 .r2) ∧
    decode [0x26, 0x02, 0x01, 0x02] = .instr (.addRD .r1 0x0102) ∧
    decode [0x27, 0x02, 0x03] = .instr (.addRI .r1 .r2) ∧
    decode [0x28, 0x01, 0x00, 0x00, 0x01] = .instr (.addDL 0x0100 0x0001) ∧
    decode [0x29, 0x01, 0x00, 0x03] = .instr (.addDR 0x0100 .r2) ∧
    decode [0x2A, 0x01, 0x00, 0x01, 0x02] = .instr (.addDD 0x0100 0x0102) ∧
    decode [0x2B, 0x01, 0x00, 0x03] = .instr (.addDI 0x0100 .r2) ∧
    decode [0x2C, 0x02, 0x00, 0x01] = .instr (.addIL .r1 0x0001) ∧
    decode [0x2D, 0x02, 0x03] = .instr (.addIR .r1 .r2) ∧
    decode [0x2E, 0x02, 0x01, 0x02] = .instr (.addID .r1 0x0102) ∧
    decode [0x2F, 0x02, 0x03] = .instr (.addII .r1 .r2) := by decide

/-- R182 to R197. -/
theorem test_decode_jne :
    decode [0x30, 0x00, 0x40, 0x00, 0x07] = .instr (.jneLL 0x0040 0x0007) ∧
    decode [0x31, 0x00, 0x40, 0x03] = .instr (.jneLR 0x0040 .r2) ∧
    decode [0x32, 0x00, 0x40, 0x01, 0x02] = .instr (.jneLD 0x0040 0x0102) ∧
    decode [0x33, 0x00, 0x40, 0x03] = .instr (.jneLI 0x0040 .r2) ∧
    decode [0x34, 0x02, 0x00, 0x07] = .instr (.jneRL .r1 0x0007) ∧
    decode [0x35, 0x02, 0x03] = .instr (.jneRR .r1 .r2) ∧
    decode [0x36, 0x02, 0x01, 0x02] = .instr (.jneRD .r1 0x0102) ∧
    decode [0x37, 0x02, 0x03] = .instr (.jneRI .r1 .r2) ∧
    decode [0x38, 0x01, 0x00, 0x00, 0x07] = .instr (.jneDL 0x0100 0x0007) ∧
    decode [0x39, 0x01, 0x00, 0x03] = .instr (.jneDR 0x0100 .r2) ∧
    decode [0x3A, 0x01, 0x00, 0x01, 0x02] = .instr (.jneDD 0x0100 0x0102) ∧
    decode [0x3B, 0x01, 0x00, 0x03] = .instr (.jneDI 0x0100 .r2) ∧
    decode [0x3C, 0x02, 0x00, 0x07] = .instr (.jneIL .r1 0x0007) ∧
    decode [0x3D, 0x02, 0x03] = .instr (.jneIR .r1 .r2) ∧
    decode [0x3E, 0x02, 0x01, 0x02] = .instr (.jneID .r1 0x0102) ∧
    decode [0x3F, 0x02, 0x03] = .instr (.jneII .r1 .r2) := by decide

/-- R202 to R208. -/
theorem test_decode_psh_pop :
    decode [0x40, 0x12, 0x34] = .instr (.pshL 0x1234) ∧
    decode [0x44, 0x02] = .instr (.pshR .r1) ∧
    decode [0x48, 0x01, 0x00] = .instr (.pshD 0x0100) ∧
    decode [0x4C, 0x02] = .instr (.pshI .r1) ∧
    decode [0x54, 0x03] = .instr (.popR .r2) ∧
    decode [0x58, 0x01, 0x02] = .instr (.popD 0x0102) ∧
    decode [0x5C, 0x03] = .instr (.popI .r2) := by decide

/-- R223 to R226, R228, R240. -/
theorem test_decode_cal :
    decode [0x60, 0x00, 0x40] = .instr (.calL 0x0040) ∧
    decode [0x64, 0x02] = .instr (.calR .r1) ∧
    decode [0x68, 0x01, 0x00] = .instr (.calD 0x0100) ∧
    decode [0x6C, 0x02] = .instr (.calI .r1) ∧
    decode [0x70] = .instr .ret ∧
    decode [0x80] = .instr .hlt := by decide

/-! ### One step of every form of MOV, on the Example of its rule -/

theorem test_movLR : stepsTo (movState [0x11, 0x12, 0x34, 0x03] 0xABCD)
    (fun s => { s with ip := 0x0004, r2 := 0x1234, cycles := 1 }) := by decide

theorem test_movLD : stepsTo (movState [0x12, 0x12, 0x34, 0x01, 0x02] 0xABCD)
    (fun s => { s with ip := 0x0005, cycles := 1, mem := movMem [0x12, 0x12, 0x34, 0x01, 0x02] 0x1234 }) := by
  decide

theorem test_movLI : stepsTo (movState [0x13, 0x12, 0x34, 0x03] 0xABCD)
    (fun s => { s with ip := 0x0004, cycles := 1, mem := movMem [0x13, 0x12, 0x34, 0x03] 0x1234 }) := by decide

theorem test_movRR : stepsTo (movState [0x15, 0x02, 0x03] 0xABCD)
    (fun s => { s with ip := 0x0003, r2 := 0x0100, cycles := 1 }) := by decide

theorem test_movRD : stepsTo (movState [0x16, 0x02, 0x01, 0x02] 0xABCD)
    (fun s => { s with ip := 0x0004, cycles := 1, mem := movMem [0x16, 0x02, 0x01, 0x02] 0x0100 }) := by decide

theorem test_movRI : stepsTo (movState [0x17, 0x02, 0x03] 0xABCD)
    (fun s => { s with ip := 0x0003, cycles := 1, mem := movMem [0x17, 0x02, 0x03] 0x0100 }) := by decide

theorem test_movDR : stepsTo (movState [0x19, 0x01, 0x00, 0x03] 0xABCD)
    (fun s => { s with ip := 0x0004, r2 := 0x1234, cycles := 1 }) := by decide

theorem test_movDD : stepsTo (movState [0x1A, 0x01, 0x00, 0x01, 0x02] 0xABCD)
    (fun s => { s with ip := 0x0005, cycles := 1, mem := movMem [0x1A, 0x01, 0x00, 0x01, 0x02] 0x1234 }) := by
  decide

theorem test_movDI : stepsTo (movState [0x1B, 0x01, 0x00, 0x03] 0xABCD)
    (fun s => { s with ip := 0x0004, cycles := 1, mem := movMem [0x1B, 0x01, 0x00, 0x03] 0x1234 }) := by decide

theorem test_movIR : stepsTo (movState [0x1D, 0x02, 0x03] 0xABCD)
    (fun s => { s with ip := 0x0003, r2 := 0x1234, cycles := 1 }) := by decide

theorem test_movID : stepsTo (movState [0x1E, 0x02, 0x01, 0x02] 0xABCD)
    (fun s => { s with ip := 0x0004, cycles := 1, mem := movMem [0x1E, 0x02, 0x01, 0x02] 0x1234 }) := by decide

theorem test_movII : stepsTo (movState [0x1F, 0x02, 0x03] 0xABCD)
    (fun s => { s with ip := 0x0003, cycles := 1, mem := movMem [0x1F, 0x02, 0x03] 0x1234 }) := by decide

/-! ### One step of every form of ADD, on the Example of its rule -/

theorem test_addLL : stepsTo (addState [0x20, 0xFF, 0xFF, 0x00, 0x01])
    (fun s => { s with ip := 0x0005, acc := 0x0000, cycles := 1 }) := by decide

theorem test_addLR : stepsTo (addState [0x21, 0x12, 0x34, 0x03])
    (fun s => { s with ip := 0x0004, acc := 0x1336, cycles := 1 }) := by decide

theorem test_addLD : stepsTo (addState [0x22, 0x12, 0x34, 0x01, 0x02])
    (fun s => { s with ip := 0x0005, acc := 0x1254, cycles := 1 }) := by decide

theorem test_addLI : stepsTo (addState [0x23, 0x12, 0x34, 0x03])
    (fun s => { s with ip := 0x0004, acc := 0x1254, cycles := 1 }) := by decide

theorem test_addRL : stepsTo (addState [0x24, 0x02, 0x00, 0x01])
    (fun s => { s with ip := 0x0004, acc := 0x0101, cycles := 1 }) := by decide

theorem test_addRR : stepsTo (addState [0x25, 0x02, 0x03])
    (fun s => { s with ip := 0x0003, acc := 0x0202, cycles := 1 }) := by decide

theorem test_addRD : stepsTo (addState [0x26, 0x02, 0x01, 0x02])
    (fun s => { s with ip := 0x0004, acc := 0x0120, cycles := 1 }) := by decide

theorem test_addRI : stepsTo (addState [0x27, 0x02, 0x03])
    (fun s => { s with ip := 0x0003, acc := 0x0120, cycles := 1 }) := by decide

theorem test_addDL : stepsTo (addState [0x28, 0x01, 0x00, 0x00, 0x01])
    (fun s => { s with ip := 0x0005, acc := 0xFFF1, cycles := 1 }) := by decide

theorem test_addDR : stepsTo (addState [0x29, 0x01, 0x00, 0x03])
    (fun s => { s with ip := 0x0004, acc := 0x00F2, cycles := 1 }) := by decide

theorem test_addDD : stepsTo (addState [0x2A, 0x01, 0x00, 0x01, 0x02])
    (fun s => { s with ip := 0x0005, acc := 0x0010, cycles := 1 }) := by decide

theorem test_addDI : stepsTo (addState [0x2B, 0x01, 0x00, 0x03])
    (fun s => { s with ip := 0x0004, acc := 0x0010, cycles := 1 }) := by decide

theorem test_addIL : stepsTo (addState [0x2C, 0x02, 0x00, 0x01])
    (fun s => { s with ip := 0x0004, acc := 0xFFF1, cycles := 1 }) := by decide

theorem test_addIR : stepsTo (addState [0x2D, 0x02, 0x03])
    (fun s => { s with ip := 0x0003, acc := 0x00F2, cycles := 1 }) := by decide

theorem test_addID : stepsTo (addState [0x2E, 0x02, 0x01, 0x02])
    (fun s => { s with ip := 0x0004, acc := 0x0010, cycles := 1 }) := by decide

theorem test_addII : stepsTo (addState [0x2F, 0x02, 0x03])
    (fun s => { s with ip := 0x0003, acc := 0x0010, cycles := 1 }) := by decide

/-! ### One step of every form of JNE, not taken and taken, on the Example of its rule -/

theorem test_jneLL :
    stepsTo (jneState [0x30, 0x00, 0x40, 0x00, 0x07] 0x0007) (fun s => { s with ip := 0x0005, cycles := 1 }) ∧
    stepsTo (jneState [0x30, 0x00, 0x40, 0x00, 0x07] 0x0008) (fun s => { s with ip := 0x0040, cycles := 1 }) := by
  decide

theorem test_jneLR :
    stepsTo (jneState [0x31, 0x00, 0x40, 0x03] 0x0102) (fun s => { s with ip := 0x0004, cycles := 1 }) ∧
    stepsTo (jneState [0x31, 0x00, 0x40, 0x03] 0x0103) (fun s => { s with ip := 0x0040, cycles := 1 }) := by
  decide

theorem test_jneLD :
    stepsTo (jneState [0x32, 0x00, 0x40, 0x01, 0x02] 0x0007) (fun s => { s with ip := 0x0005, cycles := 1 }) ∧
    stepsTo (jneState [0x32, 0x00, 0x40, 0x01, 0x02] 0x0008) (fun s => { s with ip := 0x0040, cycles := 1 }) := by
  decide

theorem test_jneLI :
    stepsTo (jneState [0x33, 0x00, 0x40, 0x03] 0x0007) (fun s => { s with ip := 0x0004, cycles := 1 }) ∧
    stepsTo (jneState [0x33, 0x00, 0x40, 0x03] 0x0008) (fun s => { s with ip := 0x0040, cycles := 1 }) := by
  decide

theorem test_jneRL :
    stepsTo (jneState [0x34, 0x02, 0x00, 0x07] 0x0007) (fun s => { s with ip := 0x0004, cycles := 1 }) ∧
    stepsTo (jneState [0x34, 0x02, 0x00, 0x07] 0x0008) (fun s => { s with ip := 0x0100, cycles := 1 }) := by
  decide

theorem test_jneRR :
    stepsTo (jneState [0x35, 0x02, 0x03] 0x0102) (fun s => { s with ip := 0x0003, cycles := 1 }) ∧
    stepsTo (jneState [0x35, 0x02, 0x03] 0x0103) (fun s => { s with ip := 0x0100, cycles := 1 }) := by decide

theorem test_jneRD :
    stepsTo (jneState [0x36, 0x02, 0x01, 0x02] 0x0007) (fun s => { s with ip := 0x0004, cycles := 1 }) ∧
    stepsTo (jneState [0x36, 0x02, 0x01, 0x02] 0x0008) (fun s => { s with ip := 0x0100, cycles := 1 }) := by
  decide

theorem test_jneRI :
    stepsTo (jneState [0x37, 0x02, 0x03] 0x0007) (fun s => { s with ip := 0x0003, cycles := 1 }) ∧
    stepsTo (jneState [0x37, 0x02, 0x03] 0x0008) (fun s => { s with ip := 0x0100, cycles := 1 }) := by decide

theorem test_jneDL :
    stepsTo (jneState [0x38, 0x01, 0x00, 0x00, 0x07] 0x0007) (fun s => { s with ip := 0x0005, cycles := 1 }) ∧
    stepsTo (jneState [0x38, 0x01, 0x00, 0x00, 0x07] 0x0008) (fun s => { s with ip := 0x0040, cycles := 1 }) := by
  decide

theorem test_jneDR :
    stepsTo (jneState [0x39, 0x01, 0x00, 0x03] 0x0102) (fun s => { s with ip := 0x0004, cycles := 1 }) ∧
    stepsTo (jneState [0x39, 0x01, 0x00, 0x03] 0x0103) (fun s => { s with ip := 0x0040, cycles := 1 }) := by
  decide

theorem test_jneDD :
    stepsTo (jneState [0x3A, 0x01, 0x00, 0x01, 0x02] 0x0007) (fun s => { s with ip := 0x0005, cycles := 1 }) ∧
    stepsTo (jneState [0x3A, 0x01, 0x00, 0x01, 0x02] 0x0008) (fun s => { s with ip := 0x0040, cycles := 1 }) := by
  decide

theorem test_jneDI :
    stepsTo (jneState [0x3B, 0x01, 0x00, 0x03] 0x0007) (fun s => { s with ip := 0x0004, cycles := 1 }) ∧
    stepsTo (jneState [0x3B, 0x01, 0x00, 0x03] 0x0008) (fun s => { s with ip := 0x0040, cycles := 1 }) := by
  decide

theorem test_jneIL :
    stepsTo (jneState [0x3C, 0x02, 0x00, 0x07] 0x0007) (fun s => { s with ip := 0x0004, cycles := 1 }) ∧
    stepsTo (jneState [0x3C, 0x02, 0x00, 0x07] 0x0008) (fun s => { s with ip := 0x0040, cycles := 1 }) := by
  decide

theorem test_jneIR :
    stepsTo (jneState [0x3D, 0x02, 0x03] 0x0102) (fun s => { s with ip := 0x0003, cycles := 1 }) ∧
    stepsTo (jneState [0x3D, 0x02, 0x03] 0x0103) (fun s => { s with ip := 0x0040, cycles := 1 }) := by decide

theorem test_jneID :
    stepsTo (jneState [0x3E, 0x02, 0x01, 0x02] 0x0007) (fun s => { s with ip := 0x0004, cycles := 1 }) ∧
    stepsTo (jneState [0x3E, 0x02, 0x01, 0x02] 0x0008) (fun s => { s with ip := 0x0040, cycles := 1 }) := by
  decide

theorem test_jneII :
    stepsTo (jneState [0x3F, 0x02, 0x03] 0x0007) (fun s => { s with ip := 0x0003, cycles := 1 }) ∧
    stepsTo (jneState [0x3F, 0x02, 0x03] 0x0008) (fun s => { s with ip := 0x0040, cycles := 1 }) := by decide

/-! ### One step of every form of PSH and POP, on the Example of its rule -/

theorem test_pshL : stepsTo (pshState [0x40, 0x12, 0x34])
    (fun s => { s with
      ip := 0x0003, sp := 0xFFFC, cycles := 1,
      mem := stackMem [0x40, 0x12, 0x34] 0xABCD [(0xFFFC, 0x1234)] }) := by decide

theorem test_pshR : stepsTo (pshState [0x44, 0x02])
    (fun s => { s with
      ip := 0x0002, sp := 0xFFFC, cycles := 1, mem := stackMem [0x44, 0x02] 0xABCD [(0xFFFC, 0x0100)] }) := by
  decide

theorem test_pshD : stepsTo (pshState [0x48, 0x01, 0x00])
    (fun s => { s with
      ip := 0x0003, sp := 0xFFFC, cycles := 1,
      mem := stackMem [0x48, 0x01, 0x00] 0xABCD [(0xFFFC, 0x1234)] }) := by decide

theorem test_pshI : stepsTo (pshState [0x4C, 0x02])
    (fun s => { s with
      ip := 0x0002, sp := 0xFFFC, cycles := 1, mem := stackMem [0x4C, 0x02] 0xABCD [(0xFFFC, 0x1234)] }) := by
  decide

theorem test_popR : stepsTo (popState [0x54, 0x03])
    (fun s => { s with ip := 0x0002, r2 := 0xBEEF, sp := 0xFFFE, cycles := 1 }) := by decide

theorem test_popD : stepsTo (popState [0x58, 0x01, 0x02])
    (fun s => { s with
      ip := 0x0003, sp := 0xFFFE, cycles := 1,
      mem := stackMem [0x58, 0x01, 0x02] 0xBEEF [(0xFFFC, 0xBEEF)] }) := by decide

theorem test_popI : stepsTo (popState [0x5C, 0x03])
    (fun s => { s with
      ip := 0x0002, sp := 0xFFFE, cycles := 1, mem := stackMem [0x5C, 0x03] 0xBEEF [(0xFFFC, 0xBEEF)] }) := by
  decide

/-! ### One step of every form of CAL, on the Example of its rule -/

theorem test_calL : stepsTo (calState [0x60, 0x00, 0x40])
    (fun s => { s with
      ip := 0x0040, sp := 0xFFEE, fp := 0xFFEE, cycles := 1,
      mem := calMem [0x60, 0x00, 0x40] [(0xFFEE, 0x0002), (0xFFF0, 0x0003), (0xFFF2, 0x4444),
        (0xFFF4, 0x3333), (0xFFF6, 0x0102), (0xFFF8, 0x0100)] }) := by decide

theorem test_calR : stepsTo (calState [0x64, 0x02])
    (fun s => { s with
      ip := 0x0100, sp := 0xFFEE, fp := 0xFFEE, cycles := 1,
      mem := calMem [0x64, 0x02] [(0xFFEE, 0x0002), (0xFFF0, 0x0002), (0xFFF2, 0x4444),
        (0xFFF4, 0x3333), (0xFFF6, 0x0102), (0xFFF8, 0x0100)] }) := by decide

theorem test_calD : stepsTo (calState [0x68, 0x01, 0x00])
    (fun s => { s with
      ip := 0x0040, sp := 0xFFEE, fp := 0xFFEE, cycles := 1,
      mem := calMem [0x68, 0x01, 0x00] [(0xFFEE, 0x0002), (0xFFF0, 0x0003), (0xFFF2, 0x4444),
        (0xFFF4, 0x3333), (0xFFF6, 0x0102), (0xFFF8, 0x0100)] }) := by decide

theorem test_calI : stepsTo (calState [0x6C, 0x02])
    (fun s => { s with
      ip := 0x0040, sp := 0xFFEE, fp := 0xFFEE, cycles := 1,
      mem := calMem [0x6C, 0x02] [(0xFFEE, 0x0002), (0xFFF0, 0x0002), (0xFFF2, 0x4444),
        (0xFFF4, 0x3333), (0xFFF6, 0x0102), (0xFFF8, 0x0100)] }) := by decide

/-! ### Corner cases (the vectors of spec/95_test_vectors.md named beside them) -/

/-- T-MOV-12: an odd address; no alignment is asked for, and the neighbours keep their bytes. -/
theorem test_movLD_odd : stepsTo (movState [0x12, 0x12, 0x34, 0x01, 0x01] 0xABCD)
    (fun s => { s with
      ip := 0x0005, cycles := 1,
      mem := cells [0x12, 0x12, 0x34, 0x01, 0x01] [(0x0100, 0x1212), (0x0102, 0x34CD)] }) := by decide

/-- T-MOV-18: a destination beyond a small memory; the source was read, nothing is written. -/
theorem test_movDI_out :
    stopsWith { movState [0x1B, 0x01, 0x00, 0x03] 0xABCD with r2 := 0x8000, cfg := { memSize := 0x8000 } }
      (.outOfBounds 0x8000 .write .word) (some 0x1B) := by decide

/-- T-MOV-13: `MOV [IP], R1` reads the word after the instruction. -/
theorem test_movIR_ip : stepsTo (movState [0x1D, 0x00, 0x02, 0xCA, 0xFE] 0xABCD)
    (fun s => { s with ip := 0x0003, r1 := 0xCAFE, cycles := 1 }) := by decide

/-- T-ADD-7: `ADD ACC, ACC` uses the old ACC twice. -/
theorem test_addRR_acc : stepsTo { addState [0x25, 0x01, 0x01] with acc := 0x4001 }
    (fun s => { s with ip := 0x0003, acc := 0x8002, cycles := 1 }) := by decide

/-- T-JNE-8: not taken, yet the target is resolved and faults. -/
theorem test_jneDL_out : stopsWith (jneState [0x38, 0xFF, 0xFF, 0x00, 0x00] 0x0000)
    (.outOfBounds 0xFFFF .read .word) (some 0x38) := by decide

/-- T-STK-2: `PSH SP` pushes the old SP. -/
theorem test_pshR_sp : stepsTo (spState [0x44, 0x06] 0xFFFE)
    (fun s => { s with ip := 0x0002, sp := 0xFFFC, cycles := 1, mem := cells [0x44, 0x06] [(0xFFFC, 0xFFFE)] }) := by
  decide

/-- T-STK-7: `POP SP` leaves the word plus 2. -/
theorem test_popR_sp : stepsTo { spState [] 0xFFFC with mem := cells [0x54, 0x06] [(0xFFFC, 0x8000)] }
    (fun s => { s with ip := 0x0002, sp := 0x8002, cycles := 1 }) := by decide

/-- T-CAL-13: an odd distance from SP to FP; the count is its half, rounded down. -/
theorem test_calL_odd : stepsTo (spState [0x60, 0x00, 0x40] 0xFFFB)
    (fun s => { s with
      ip := 0x0040, sp := 0xFFEF, fp := 0xFFEF, cycles := 1,
      mem := cells [0x60, 0x00, 0x40] [(0xFFEF, 0x0001), (0xFFF1, 0x0003)] }) := by decide

/-- The Example of R228: RET from the CAL of R223, the callee having changed the registers and pushed a word. -/
theorem test_ret : stepsTo { State.reset with
      ip := 0x0040, acc := 0x0042, r1 := 0xDEAD, r2 := 0xBEEF, r3 := 1, r4 := 2, sp := 0xFFEC, fp := 0xFFEE,
      mem := [(0x0040, 0x70)] ++ cells [] [(0xFFEE, 0x0002), (0xFFF0, 0x0003), (0xFFF2, 0x4444), (0xFFF4, 0x3333),
        (0xFFF6, 0x0102), (0xFFF8, 0x0100), (0xFFFA, 0xBBBB), (0xFFFC, 0xAAAA)] }
    (fun s => { s with
      ip := 0x0003, r1 := 0x0100, r2 := 0x0102, r3 := 0x3333, r4 := 0x4444, sp := 0xFFFE, fp := 0xFFFE,
      cycles := 1 }) := by decide

/-- T-RET-5: a count whose words do not lie below `STACK_TOP`. -/
theorem test_ret_count : stopsWith { State.reset with fp := 0xFFF2, mem := cells [0x70] [(0xFFF2, 0x0001)] }
    (.stackUnderflow 0xFFF2) (some 0x70) := by decide

/-- T-HLT-1, T-HLT-2: HLT is counted, and IP goes past its byte and wraps. -/
theorem test_hlt :
    stepsTo (endState 0x0000 [0x80]) (fun s => { s with
      ip := 0x0001, cycles := 1, run := .halted, stop := some ⟨.hltInstruction, 0x0000, some 0x80, 1⟩ }) ∧
    stepsTo (endState 0xFFFF [0x80]) (fun s => { s with
      ip := 0x0000, cycles := 1, run := .halted, stop := some ⟨.hltInstruction, 0xFFFF, some 0x80, 1⟩ }) := by
  decide

/-- T-DEC-9, T-DEC-12, T-DEC-13, T-DEC-15: a failed decode at each place of an instruction. -/
theorem test_decode_stops :
    stopsWith (movState [0x15, 0x02, 0xFF] 0xABCD) (.illegalOpcode 0x0002 0xFF) (some 0x15) ∧
    stopsWith (endState 0xFFFE [0x15, 0x02]) (.outOfBounds 0x10000 .read .byte) (some 0x15) ∧
    stopsWith (endState 0xFFFE [0x15, 0x08]) (.illegalOpcode 0xFFFF 0x08) (some 0x15) ∧
    stopsWith (endState 0xFFFC [0x1A, 0x01, 0x00]) (.outOfBounds 0xFFFF .read .word) (some 0x1A) := by decide

/-- T-DEC-17: IP beyond a small memory. -/
theorem test_ip_beyond : stopsWith { State.launch { memSize := 0x8000, stackTop := 0x7FFE } [] with ip := 0x8000 }
    (.outOfBounds 0x8000 .read .byte) none := by decide

/-- A row of the opcode table as the host numbers its bits: the first byte is bits 7..0. -/
theorem test_table_words :
    decodeTableWord 8 0x80 = some .hlt ∧ decodeTableWord 32 0x03341211 = some (.movLR 0x1234 .r2) ∧
    decodeTableWord 40 0x0700400030 = some (.jneLL 0x0040 0x0007) ∧ decodeTableWord 8 0x20 = some (.addLL 0 0) ∧
    decodeTableWord 8 0x14 = none ∧ decodeTableWord 16 0x0844 = none := by decide

/-- A placed row is the first instruction after reset. -/
theorem test_withFetchWord :
    after (step (State.reset.withFetchWord 32 0x03341211)) =
      after (exec (.movLR 0x1234 .r2) (State.reset.withFetchWord 32 0x03341211)) ∧
    (after (step (State.reset.withFetchWord 32 0x03341211))).map (·.r2) = some 0x1234 := by decide

/-- P1, the source's scenario, through the host's moves: the run ends by HLT with ACC = 15, after four cycles. -/
theorem test_boot_and_drive :
    (boot Config.standard [0x11, 0x00, 0x05, 0x02, 0x11, 0x00, 0x0A, 0x03, 0x25, 0x02, 0x03, 0x80]).toOption.bind
      (fun s => finalState (drive 9 s)) =
    some ([0x000C, 0x000F, 0x0005, 0x000A, 0x0000, 0x0000, 0xFFFE, 0xFFFE],
      ⟨.hltInstruction, 0x000B, some 0x80, 4⟩) := by decide

/-! ### Witnesses: the hypotheses of each obligation that has any can be met, at the boundaries of their ranges -/

theorem witness_DecodedBytesAreTheEncoding : decode [0x80, 0xFF] = .instr .hlt := by decide

theorem witness_EncodingsAreTheWellFormedImages :
    Image.wf ⟨0x15, [0x07, 0x00]⟩ = true ∧ encode (.movRR .fp .ip) = [0x15, 0x07, 0x00] := by decide

theorem witness_UnassignedLeadingBytesAreIllegal :
    leadAssigned 0x00 = false ∧ leadAssigned 0x10 = false ∧ leadAssigned 0x81 = false ∧ leadAssigned 0xFF = false ∧
    leadAssigned 0x11 = true ∧ leadAssigned 0x80 = true := by decide

/-- Each clause, with the lowest and the highest illegal byte. -/
theorem witness_RegisterPayloadAboveSevenIsIllegal :
    leadAssigned 0x44 = true ∧ leadAssigned 0x15 = true ∧ leadAssigned 0x11 = true ∧
    7 < (0x08 : Byte).toNat ∧ 7 < (0xFF : Byte).toNat ∧ operandModes 0x44 = [.reg] ∧
    operandModes 0x15 = [.reg, .reg] ∧ (0x07 : Byte).toNat ≤ 7 ∧ operandModes 0x11 = [.lit, .reg] := by decide

theorem witness_StepRunsTheDecodedInstruction :
    (endState 0xFFFF [0x80]).run = .running ∧
    decode (fetchWindow (endState 0xFFFF [0x80]) (endState 0xFFFF [0x80]).ip.toNat 5) = .instr .hlt := by decide

/-- A four-byte instruction that ends with the last byte of memory. -/
theorem witness_StepRunsTheInstructionInMemory :
    (endState 0xFFFC [0x11, 0x12, 0x34, 0x03]).run = .running ∧
    (endState 0xFFFC [0x11, 0x12, 0x34, 0x03]).ip.toNat + instrLength (.movLR 0x1234 .r2) ≤
      (endState 0xFFFC [0x11, 0x12, 0x34, 0x03]).cfg.memSize ∧
    (∀ k, k < instrLength (.movLR 0x1234 .r2) → (encode (.movLR 0x1234 .r2))[k]? =
      some ((endState 0xFFFC [0x11, 0x12, 0x34, 0x03]).byteAt
        ((endState 0xFFFC [0x11, 0x12, 0x34, 0x03]).ip.toNat + k))) := by decide

theorem witness_StepExistsExactlyWhileRunning :
    State.reset.run = .running ∧ { State.reset with run := .halted }.run = .halted := by decide

theorem witness_UnassignedByteAtIpHalts :
    (endState 0xFFFF [0x14]).run = .running ∧ (endState 0xFFFF [0x14]).ip.toNat < (endState 0xFFFF [0x14]).cfg.memSize ∧
    leadAssigned ((endState 0xFFFF [0x14]).byteAt (endState 0xFFFF [0x14]).ip.toNat) = false := by decide

/-- At offsets 0, 1, 2 and 3. -/
theorem witness_IllegalByteIsReportedWhereItStands :
    State.reset.run = .running ∧ decode (fetchWindow State.reset State.reset.ip.toNat 5) = .illegal 0 0x00 ∧
    decode (fetchWindow (endState 0xFFFE [0x15, 0x08]) 0xFFFE 5) = .illegal 1 0x08 ∧
    decode (fetchWindow (endState 0xFFFD [0x15, 0x07, 0xFF]) 0xFFFD 5) = .illegal 2 0xFF ∧
    decode (fetchWindow (endState 0xFFFC [0x11, 0xFF, 0xFF, 0x08]) 0xFFFC 5) = .illegal 3 0x08 := by decide

/-- IP just past a memory of two bytes, and at 0xFFFF. -/
theorem witness_IpBeyondMemoryFaultsAtFetch :
    (State.launch ⟨2, 2, 0, 0x0002, 0⟩ []).run = .running ∧
    (State.launch ⟨2, 2, 0, 0x0002, 0⟩ []).cfg.memSize ≤ (State.launch ⟨2, 2, 0, 0x0002, 0⟩ []).ip.toNat ∧
    (State.launch ⟨2, 2, 0, 0xFFFF, 0⟩ []).cfg.memSize ≤ (State.launch ⟨2, 2, 0, 0xFFFF, 0⟩ []).ip.toNat := by decide

/-- A word payload wholly outside, a word payload half outside, a register payload outside. -/
theorem witness_TruncatedInstructionFaults :
    (endState 0xFFFF [0x11]).run = .running ∧ (endState 0xFFFF [0x11]).ip.toNat < 65536 ∧
    decode (fetchWindow (endState 0xFFFF [0x11]) 0xFFFF 5) = .cut 1 .word ∧
    decode (fetchWindow (endState 0xFFFE [0x11, 0x01]) 0xFFFE 5) = .cut 1 .word ∧
    decode (fetchWindow (endState 0xFFFD [0x11, 0x01, 0x02]) 0xFFFD 5) = .cut 3 .byte := by decide

theorem witness_StoppingCycleCommitsNothing : ∃ t r, State.reset.stop = none ∧ step State.reset = .next t ∧
    t.stop = some r ∧ r.reason ≠ .hltInstruction ∧ State.reset.ip.toNat < State.reset.cfg.memSize ∧
    (State.launch ⟨2, 2, 0, 0x0002, 0⟩ []).cfg.memSize ≤ (State.launch ⟨2, 2, 0, 0x0002, 0⟩ []).ip.toNat :=
  ⟨_, _, rfl, rfl, rfl, by decide⟩

/-- Each of the three cases: a commit, a commit by HLT, a stop. -/
theorem witness_CyclesCountsCommittedSteps :
    (∃ t, step (movState [0x15, 0x02, 0x03] 0) = .next t ∧ t.cycles = 1 ∧ t.stop = none) ∧
    (∃ t, step (endState 0x0000 [0x80]) = .next t ∧ t.cycles = 1 ∧ t.run = .halted) ∧
    (∃ t, step State.reset = .next t ∧ t.cycles = 0 ∧ t.run = .halted) :=
  ⟨⟨_, rfl, by decide⟩, ⟨_, rfl, by decide⟩, ⟨_, rfl, by decide⟩⟩

theorem witness_OnlyHltHaltsNormally : ∃ t r, State.reset.stop = none ∧ exec .hlt State.reset = .next t ∧
    t.stop = some r ∧ r.reason = .hltInstruction := ⟨_, _, rfl, rfl, rfl, rfl⟩

/-- The defaults, the smallest memory, and the highest `STACK_TOP`. -/
theorem witness_ResetValues :
    Config.Valid Config.standard ∧ Config.Valid ⟨2, 0, 0, 0xFFFF, 1⟩ ∧
    Config.Valid ⟨65536, 0xFFFF, 0xFFFF, 0x0000, 0xFFFF⟩ := by decide

theorem witness_EmptyMemoryHaltsAtOnce :
    Config.Valid ⟨2, 2, 2, 0x0000, 1⟩ ∧ (⟨2, 2, 2, 0x0000, 1⟩ : Config).entry = 0 := by decide

theorem witness_ResetMeetsTheInvariant :
    Config.Valid Config.standard ∧ Memory.wf [(0, 0x80), (0xFFFF, 0xFF)] ∧
    (∀ c ∈ ([(0, 0x80), (0xFFFF, 0xFF)] : Memory), c.1 < Config.standard.memSize) := by decide

/-- The state before HLT meets the invariant. -/
theorem inv_beforeHlt : Inv (endState 0xFFFF [0x80]) where
  config := by decide
  memCanonical := by decide
  memInRange := by decide
  runningIffNoStop := by decide
  stopFits := by intro r h; exact absurd h (by simp [endState, State.reset, State.launch])

theorem witness_StepKeepsTheInvariant :
    Inv (endState 0xFFFF [0x80]) ∧ ∃ t, step (endState 0xFFFF [0x80]) = .next t ∧ t.run = .halted :=
  ⟨inv_beforeHlt, _, rfl, by decide⟩

theorem witness_RunKeepsTheInvariantAndParameters : Inv (endState 0xFFFF [0x80]) := inv_beforeHlt

/-- The clauses where they meet: the last byte of memory is a byte and no word, the address after it is neither. -/
theorem witness_AccessorsCheckBounds :
    State.reset.cfg.memSize ≤ 0x10000 ∧ State.reset.cfg.memSize ≤ 0xFFFF + 1 ∧ 0xFFFF < State.reset.cfg.memSize ∧
    0xFFFE + 1 < State.reset.cfg.memSize := by decide

/-- Each clause where they meet: 0xFFFE starts the last word, 0xFFFF starts none. -/
theorem witness_WordWrittenIsReadBack :
    Memory.wf State.reset.mem ∧ 0xFFFE + 1 < State.reset.cfg.memSize ∧ State.reset.cfg.memSize ≤ 0xFFFF + 1 := by decide

theorem witness_TwoBytesMakeTheWord : Memory.wf (movMem [0x80] 0xABCD) ∧ 0xFFFE + 1 < State.reset.cfg.memSize := by
  decide

/-- A register that MOV leaves alone, and one that RET leaves alone. -/
theorem witness_RegistersChangeOnlyAsNamed :
    (∃ t, exec (.movLR 0x1234 .r2) State.reset = .next t ∧ operationOf (.movLR 0x1234 .r2) = some .mov ∧
      Reg.r1 ≠ .ip ∧ Reg.r1 ∉ implicitDests .mov ∧ namedDest (.movLR 0x1234 .r2) ≠ some .r1) ∧
    (∃ t, exec .ret { State.reset with fp := 0xFFF2 } = .next t ∧ operationOf .ret = some .ret ∧
      Reg.acc ≠ .ip ∧ Reg.acc ∉ implicitDests .ret ∧ namedDest .ret ≠ some .acc ∧ t.stop = none) :=
  ⟨⟨_, rfl, by decide⟩, ⟨_, rfl, by decide⟩⟩

/-- Just below and just past the bytes stored, and a form that stores nothing. -/
theorem witness_MemoryChangesOnlyWhereStored :
    Memory.wf State.reset.mem ∧ storeRange (.movLD 0x1234 0xFFFE) State.reset = (0xFFFE, 2) ∧
    storeRange (.calL 0x0040) State.reset = (0xFFF2, 12) ∧ storeRange .ret State.reset = (0, 0) ∧
    (∃ t, exec (.movLD 0x1234 0xFFFE) State.reset = .next t ∧ 0xFFFD < 0xFFFE ∧ 0xFFFE + 2 ≤ 0x10000 ∧
      t.stop = none) := ⟨by decide, by decide, by decide, by decide, _, rfl, by decide⟩

/-- `MOV #0x8070, [0x0005]` at 0x0000 stores where execution goes on. -/
theorem witness_StoreIsSeenByTheNextFetch :
    ∃ t, Memory.wf State.reset.mem ∧
      sourceFits (.lit 0x8070) (past (movOf (.lit 0x8070) (.dir 0x0005)) State.reset) = true ∧
      destAddr (.dir 0x0005) (past (movOf (.lit 0x8070) (.dir 0x0005)) State.reset) = some 5 ∧
      5 + 1 < State.reset.cfg.memSize ∧
      5 = (past (movOf (.lit 0x8070) (.dir 0x0005)) State.reset).ip.toNat ∧
      exec (movOf (.lit 0x8070) (.dir 0x0005)) State.reset = .next t :=
  ⟨_, by decide, by decide, by decide, by decide, by decide, rfl⟩

/-- A source at the last word of memory; a literal; a register. -/
theorem witness_MovToRegister :
    sourceFits (.dir 0xFFFE) (past (movOf (.dir 0xFFFE) (.reg .ip)) State.reset) = true ∧
    sourceFits (.lit 0xFFFF) (past (movOf (.lit 0xFFFF) (.reg .sp)) State.reset) = true ∧
    sourceFits (.reg .ip) (past (movOf (.reg .ip) (.reg .r1)) State.reset) = true ∧
    sourceFits (.ind .r1) (past (movOf (.ind .r1) (.reg .r1)) (movState [] 0)) = true := by decide

theorem witness_MovToMemory :
    Memory.wf (movState [] 0).mem ∧
    sourceFits (.ind .r1) (past (movOf (.ind .r1) (.dir 0xFFFE)) (movState [] 0)) = true ∧
    destAddr (.dir 0xFFFE) (past (movOf (.ind .r1) (.dir 0xFFFE)) (movState [] 0)) = some 0xFFFE ∧
    0xFFFE + 1 < (movState [] 0).cfg.memSize ∧
    destAddr (.ind .r2) (past (movOf (.ind .r1) (.ind .r2)) (movState [] 0)) = some 0x0102 := by decide

/-- Both clauses at 0xFFFF, the lowest address that starts no word. -/
theorem witness_MovStops :
    State.reset.cfg.memSize ≤ 0xFFFF + 1 ∧
    sourceAddr (.dir 0xFFFF) (past (movOf (.dir 0xFFFF) (.dir 0xFFFF)) State.reset) = some 0xFFFF ∧
    sourceFits (.lit 0) (past (movOf (.lit 0) (.dir 0xFFFF)) State.reset) = true ∧
    destAddr (.dir 0xFFFF) (past (movOf (.lit 0) (.dir 0xFFFF)) State.reset) = some 0xFFFF := by decide

theorem witness_AddWritesTheSumToAcc :
    sourceFits (.lit 0xFFFF) (past (addOf (.lit 0xFFFF) (.dir 0xFFFE)) State.reset) = true ∧
    sourceFits (.dir 0xFFFE) (past (addOf (.lit 0xFFFF) (.dir 0xFFFE)) State.reset) = true := by decide

theorem witness_AddStops :
    State.reset.cfg.memSize ≤ 0xFFFF + 1 ∧
    sourceAddr (.dir 0xFFFF) (past (addOf (.dir 0xFFFF) (.dir 0xFFFF)) State.reset) = some 0xFFFF ∧
    sourceFits (.dir 0xFFFE) (past (addOf (.dir 0xFFFE) (.dir 0xFFFF)) State.reset) = true ∧
    sourceAddr (.dir 0xFFFF) (past (addOf (.dir 0xFFFE) (.dir 0xFFFF)) State.reset) = some 0xFFFF := by decide

/-- Taken and not taken. -/
theorem witness_JneBranchesOrFallsThrough :
    sourceFits (.lit 0x0040) (past (jneOf (.lit 0x0040) (.lit 1)) State.reset) = true ∧
    sourceFits (.lit 1) (past (jneOf (.lit 0x0040) (.lit 1)) State.reset) = true ∧
    State.reset.acc ≠ sourceValue (.lit 1) (past (jneOf (.lit 0x0040) (.lit 1)) State.reset) ∧
    sourceFits (.dir 0xFFFE) (past (jneOf (.lit 0x0040) (.dir 0xFFFE)) State.reset) = true ∧
    State.reset.acc = sourceValue (.dir 0xFFFE) (past (jneOf (.lit 0x0040) (.dir 0xFFFE)) State.reset) := by decide

theorem witness_JneStopsWhetherOrNotTaken :
    State.reset.cfg.memSize ≤ 0xFFFF + 1 ∧
    sourceAddr (.dir 0xFFFF) (past (jneOf (.dir 0xFFFF) (.dir 0xFFFF)) State.reset) = some 0xFFFF ∧
    sourceFits (.dir 0xFFFE) (past (jneOf (.dir 0xFFFE) (.dir 0xFFFF)) State.reset) = true ∧
    sourceAddr (.dir 0xFFFF) (past (jneOf (.dir 0xFFFE) (.dir 0xFFFF)) State.reset) = some 0xFFFF := by decide

/-- The lowest push: SP = 2. -/
theorem witness_PshStoresBelowSp :
    Memory.wf (spState [] 2).mem ∧ sourceFits (.ind .sp) (past (pshOf (.ind .sp)) (spState [] 2)) = true ∧
    (spState [] 2).cfg.stackBottom + 2 ≤ (spState [] 2).sp.toNat ∧
    (spState [] 2).sp.toNat ≤ (spState [] 2).cfg.memSize := by decide

/-- Each clause: the operand at 0xFFFF, SP = 1, SP just above a small memory. -/
theorem witness_PshStops :
    sourceAddr (.dir 0xFFFF) (past (pshOf (.dir 0xFFFF)) State.reset) = some 0xFFFF ∧
    State.reset.cfg.memSize ≤ 0xFFFF + 1 ∧
    sourceFits (.lit 1) (past (pshOf (.lit 1)) (spState [] 1)) = true ∧
    ((spState [] 1).sp.toNat : Int) - 2 < (spState [] 1).cfg.stackBottom ∧
    sourceFits (.lit 1) (past (pshOf (.lit 1)) { State.launch smallConfig [] with sp := 0x8001 }) = true ∧
    smallConfig.stackBottom + 2 ≤ (0x8001 : Word).toNat ∧ smallConfig.memSize < (0x8001 : Word).toNat := by decide

/-- The topmost word of the stack. -/
theorem witness_PopToRegister :
    (spState [] 0xFFFC).cfg.Valid ∧ (spState [] 0xFFFC).sp.toNat + 2 ≤ (spState [] 0xFFFC).cfg.stackTop := by decide

theorem witness_PopToMemory :
    (spState [] 0xFFFC).cfg.Valid ∧ Memory.wf (spState [] 0xFFFC).mem ∧
    (spState [] 0xFFFC).sp.toNat + 2 ≤ (spState [] 0xFFFC).cfg.stackTop ∧
    destAddr (.dir 0xFFFE) (past (popOf (.dir 0xFFFE)) (spState [] 0xFFFC)) = some 0xFFFE ∧
    0xFFFE + 1 < (spState [] 0xFFFC).cfg.memSize := by decide

/-- Each clause where they meet: SP = 0xFFFD, and SP = 0xFFFC with the destination at 0xFFFF. -/
theorem witness_PopStops :
    State.reset.cfg.Valid ∧ (spState [] 0xFFFD).cfg.stackTop < (spState [] 0xFFFD).sp.toNat + 2 ∧
    (spState [] 0xFFFC).sp.toNat + 2 ≤ (spState [] 0xFFFC).cfg.stackTop ∧
    destAddr (.dir 0xFFFF) (past (popOf (.dir 0xFFFF)) (spState [] 0xFFFC)) = some 0xFFFF ∧
    (spState [] 0xFFFC).cfg.memSize ≤ 0xFFFF + 1 := by decide

/-- A later state that differs in IP and ACC. -/
theorem witness_PopGivesBackWhatPshPushed :
    (spState [] 2).cfg.Valid ∧ Memory.wf (spState [] 2).mem ∧
    sourceFits (.lit 0x1234) (past (pshOf (.lit 0x1234)) (spState [] 2)) = true ∧
    (spState [] 2).cfg.stackBottom + 2 ≤ (spState [] 2).sp.toNat ∧
    (spState [] 2).sp.toNat ≤ (spState [] 2).cfg.stackTop ∧ Reg.ip ≠ .sp ∧
    ∃ t, exec (pshOf (.lit 0x1234)) (spState [] 2) = .next t ∧
      ∃ v : State, v ≠ t ∧ v.cfg = t.cfg ∧ v.sp = t.sp ∧ v.byteAt t.sp.toNat = t.byteAt t.sp.toNat ∧
        v.byteAt (t.sp.toNat + 1) = t.byteAt (t.sp.toNat + 1) :=
  ⟨by decide, by decide, by decide, by decide, by decide, by decide, _, rfl,
    { spState [] 2 with ip := 0x0100, acc := 7, sp := 0, mem := [(0, 0x12), (1, 0x34)] }, by decide⟩

/-- The lowest frame: SP = 12. -/
theorem witness_CalPushesTheFrame :
    Memory.wf (spState [] 12).mem ∧ sourceFits (.dir 0xFFFE) (past (calOf (.dir 0xFFFE)) (spState [] 12)) = true ∧
    (spState [] 12).cfg.stackBottom + 12 ≤ (spState [] 12).sp.toNat ∧
    (spState [] 12).sp.toNat ≤ (spState [] 12).cfg.memSize := by decide

/-- Each clause: the target at 0xFFFF, SP = 11, SP just above a small memory. -/
theorem witness_CalStops :
    sourceAddr (.dir 0xFFFF) (past (calOf (.dir 0xFFFF)) State.reset) = some 0xFFFF ∧
    State.reset.cfg.memSize ≤ 0xFFFF + 1 ∧
    sourceFits (.reg .r1) (past (calOf (.reg .r1)) (spState [] 11)) = true ∧
    ((spState [] 11).sp.toNat : Int) - 12 < (spState [] 11).cfg.stackBottom ∧
    sourceFits (.reg .r1) (past (calOf (.reg .r1)) { State.launch smallConfig [] with sp := 0x8001 }) = true ∧
    smallConfig.stackBottom + 12 ≤ (0x8001 : Word).toNat ∧ smallConfig.memSize < (0x8001 : Word).toNat := by decide

/-- The topmost frame, with no words above it. -/
theorem witness_RetRestoresTheFrame :
    State.reset.cfg.Valid ∧ (0xFFF2 : Word).toNat + 12 + 2 * (State.reset.wordAt (0xFFF2 : Word).toNat).toNat ≤
      State.reset.cfg.stackTop := by decide

/-- Each clause where they meet: FP = 0xFFF3, and FP = 0xFFF2 with a count of 1. -/
theorem witness_RetStops :
    State.reset.cfg.Valid ∧ State.reset.cfg.stackTop < (0xFFF3 : Word).toNat + 12 ∧
    (0xFFF2 : Word).toNat + 12 ≤ State.reset.cfg.stackTop ∧
    State.reset.cfg.stackTop < (0xFFF2 : Word).toNat + 12 +
      2 * ({ State.reset with mem := [(0xFFF3, 0x01)] }.wordAt (0xFFF2 : Word).toNat).toNat := by decide

/-- The state of the CAL examples, two words pushed, and a callee that changed ACC, R1 and SP. -/
theorem witness_RetUndoesCal :
    (calState []).cfg.Valid ∧ Memory.wf (calState []).mem ∧
    sourceFits (.lit 0x0040) (past (calOf (.lit 0x0040)) (calState [])) = true ∧
    (calState []).cfg.stackBottom + 12 ≤ (calState []).sp.toNat ∧
    (calState []).sp.toNat ≤ (calState []).fp.toNat ∧ (calState []).fp.toNat ≤ (calState []).cfg.stackTop ∧
    ((calState []).fp.toNat - (calState []).sp.toNat) % 2 = 0 ∧
    ∃ t, exec (calOf (.lit 0x0040)) (calState []) = .next t ∧ ∃ v : State, v ≠ t ∧ v.cfg = t.cfg ∧ v.fp = t.fp ∧
      ∀ x, (calState []).sp.toNat - 12 ≤ x → x < (calState []).sp.toNat → v.byteAt x = t.byteAt x :=
  ⟨by decide, by decide, by decide, by decide, by decide, by decide, by decide, _, rfl,
    { calState [] with
      acc := 0x0042, r1 := 0xDEAD, sp := 0xFFEC, fp := 0xFFEE,
      mem := calMem [] [(0xFFEE, 0x0002), (0xFFF0, 0x0003), (0xFFF2, 0x4444), (0xFFF4, 0x3333), (0xFFF6, 0x0102),
        (0xFFF8, 0x0100)] },
    by decide, rfl, by decide, fun x _ _ => rfl⟩

/-- SP at `STACK_TOP`. -/
theorem witness_PushesStayBelowStackTop :
    ∃ t, Memory.wf State.reset.mem ∧ State.reset.sp.toNat ≤ State.reset.cfg.stackTop ∧
      exec (pshOf (.lit 0x1234)) State.reset = .next t ∧ State.reset.cfg.stackTop ≤ 0xFFFE :=
  ⟨_, by decide, by decide, rfl, by decide⟩

theorem witness_PushesStayAboveStackBottom :
    (∃ t, (spState [] 2).stop = none ∧ exec (pshOf (.lit 0x1234)) (spState [] 2) = .next t ∧ t.stop = none) ∧
    (∃ t, (spState [] 12).stop = none ∧ exec (calOf (.lit 0x0040)) (spState [] 12) = .next t ∧ t.stop = none) :=
  ⟨⟨_, rfl, rfl, rfl⟩, ⟨_, rfl, rfl, rfl⟩⟩

/-- An image in the last byte of memory. -/
theorem witness_BootPlacesTheImage :
    Config.Valid ⟨65536, 0xFFFE, 0, 0xFFFF, 0xFFFF⟩ ∧ 0xFFFF + ([0x80] : List Byte).length ≤ 65536 := by decide

/-- The highest IP with room for the five bytes. -/
theorem witness_PlacedTableWordRunsNext :
    Memory.wf (endState 0xFFFB []).mem ∧ (endState 0xFFFB []).run = .running ∧
    (endState 0xFFFB []).ip.toNat + 5 ≤ (endState 0xFFFB []).cfg.memSize ∧
    decodeTableWord 8 0x80 = some .hlt := by decide

theorem witness_PausingBetweenCyclesChangesNothing : (drive 1 (endState 0xFFFF [0x80])).run = .halted := by decide

end Sys2Proof.Tests
end

section
/-! SUPPORT. The invariant along a run (spec/10_state.md rules R31, R33, R35): what each of the three ends of a cycle (a
stop, the normal halt, a commit) keeps of it, then a step, then a run of any length. -/

namespace Sys2Proof.Machine

variable {s t : State}

/-! ### The stop a failed decode takes -/

/-- The record lacks a leading byte exactly when the decoder saw no byte at all (R31). -/
theorem fetchedLead_eq_none : fetchedLead s = none ↔ fetchWindow s s.ip.toNat 5 = [] := List.head?_eq_none_iff

/-- An instruction cut short is reported no higher than the end of memory (R57), so at most at 0x10000. -/
theorem cut_address_le {off : Nat} {w : Width} (hv : s.cfg.Valid)
    (hd : decode (fetchWindow s s.ip.toNat 5) = .cut off w) : s.ip.toNat + off ≤ 0x10000 := by
  obtain ⟨⟨-, hmem⟩, -⟩ := hv
  obtain ⟨hoff, -⟩ := decode_eq_cut hd
  rw [fetchWindow_length] at hoff
  have := s.ip.isLt
  omega

/-! ### The three ends of a cycle -/

/-- A stop other than HLT's keeps the invariant, when its record has a leading byte wherever R31 asks for one and its
address is no higher than 0x10000. -/
theorem Inv.stoppedAt {r : StopReason} {op : Option Byte} (hs : Inv s) (hhlt : r ≠ .hltInstruction)
    (hop : op = none → r = .outOfBounds s.ip.toNat .read .byte)
    (haddr : ∀ a dir width, r = .outOfBounds a dir width → a ≤ 0x10000) : Inv (stoppedAt s r op) where
  config := hs.config
  memCanonical := hs.memCanonical
  memInRange := hs.memInRange
  runningIffNoStop := by simp [Machine.stoppedAt]
  stopFits := by
    rintro _ ⟨⟩
    exact ⟨rfl, fun h => absurd h hhlt, fun _ => rfl, hop, haddr⟩

/-- The normal halt keeps the invariant: its record counts the cycle, and IP stands just past HLT (R118, R240). -/
theorem Inv.hltHalt (hs : Inv s) : Inv ((s.advance 1).commit.halt .hltInstruction s.ip (some 0x80)) where
  config := hs.config
  memCanonical := hs.memCanonical
  memInRange := hs.memInRange
  runningIffNoStop := by simp
  stopFits := by
    rintro _ ⟨⟩
    exact ⟨rfl, fun _ => ⟨rfl, rfl⟩, fun h => absurd rfl h, nofun, nofun⟩

/-- A Running state whose parameters, memory and empty record are in order meets the invariant. -/
theorem Inv.of_running (hrun : s.run = .running) (hstop : s.stop = none) (hcfg : s.cfg.Valid)
    (hwf : Memory.wf s.mem) (hrange : ∀ c ∈ s.mem, c.1 < s.cfg.memSize) : Inv s where
  config := hcfg
  memCanonical := hwf
  memInRange := hrange
  runningIffNoStop := iff_of_true hrun hstop
  stopFits r h := by simp [hstop] at h

/-! ### A cycle after decode, and a step -/

theorem exec_keeps_inv {i : Instr} (hs : Inv s) (hrun : s.run = .running) (h : exec i s = .next t) : Inv t := by
  rcases exec_cases h with ⟨r, rfl, hfault, haddr⟩ | ⟨-, rfl⟩ | ⟨-, u, rfl, hur, hus, -, huc, huw, hum⟩
  · refine hs.stoppedAt ?_ nofun fun a dir width hr => ?_
    · rintro rfl
      exact absurd hfault nofun
    · have := haddr hs.config a dir width hr
      omega
  · exact hs.hltHalt
  · have hstop : s.stop = none := hs.runningIffNoStop.1 hrun
    apply Inv.of_running
    · simpa [hur] using hrun
    · simpa [hus] using hstop
    · simpa [huc] using hs.config
    · exact huw hs.memCanonical
    · simpa [huc] using hum hs.memInRange

theorem exec_keeps_cfg {i : Instr} (h : exec i s = .next t) : t.cfg = s.cfg := by
  rcases exec_cases h with ⟨r, rfl, -⟩ | ⟨-, rfl⟩ | ⟨-, u, rfl, -, -, -, huc, -⟩
  · rfl
  · rfl
  · exact huc

theorem step_keeps_inv (hs : Inv s) (h : step s = .next t) : Inv t := by
  obtain ⟨hrun, ⟨i, -, he⟩ | ⟨off, b, hd, rfl⟩ | ⟨off, w, hd, rfl⟩⟩ := step_cases h
  · exact exec_keeps_inv hs hrun he
  · refine hs.stoppedAt nofun (fun hlead => ?_) nofun
    rw [fetchedLead_eq_none.1 hlead] at hd
    cases hd
  · refine hs.stoppedAt nofun (fun hlead => ?_) ?_
    · rw [fetchedLead_eq_none.1 hlead] at hd
      cases hd
      rfl
    · rintro _ _ _ ⟨⟩
      exact cut_address_le hs.config hd

/-- No step changes the parameters (R35). -/
theorem step_keeps_cfg (h : step s = .next t) : t.cfg = s.cfg := by
  obtain ⟨-, ⟨i, -, he⟩ | ⟨off, b, -, rfl⟩ | ⟨off, w, -, rfl⟩⟩ := step_cases h
  · exact exec_keeps_cfg he
  · rfl
  · rfl

/-! ### A run -/

/-- What every step keeps, a run of any length keeps. -/
theorem drive_keeps {P : State → Prop} (hstep : ∀ s t, P s → step s = .next t → P t) (n : Nat) (s : State)
    (hs : P s) : P (drive n s) := by
  induction n generalizing s with
  | zero => exact hs
  | succ n ih =>
    unfold drive
    split
    · next t ht => exact ih t (hstep s t hs ht)
    · exact hs
    · exact hs

/-- Settles O23: each half is kept by every step, hence by a run. -/
theorem runKeepsTheInvariantAndParameters : Obligations.RunKeepsTheInvariantAndParameters := by
  intro n s hs
  have hinv : Inv (drive n s) := drive_keeps (fun _ _ => step_keeps_inv) n s hs
  have hcfg : (drive n s).cfg = s.cfg :=
    drive_keeps (P := fun t => t.cfg = s.cfg) (fun _ _ hu h => (step_keeps_cfg h).trans hu) n s rfl
  exact ⟨hinv, hcfg⟩

end Sys2Proof.Machine
end

section
/-! SUPPORT. Where the invariant begins (spec/10_state.md rules R33, R38) and that a step keeps it: reset, a launch, a
loaded image, one step. -/

namespace Sys2Proof.Machine

/-- Settles O22: by the ends a cycle can have (`step_cases`, `exec_cases`), each of which keeps the invariant. -/
theorem stepKeepsTheInvariant : Obligations.StepKeepsTheInvariant := fun _ _ => step_keeps_inv

/-- A launch starts Running without a record, so only the parameters and the memory it is given matter (R38). -/
theorem Inv.launch {cfg : Config} {mem : Memory} (hcfg : cfg.Valid) (hwf : Memory.wf mem)
    (hrange : ∀ c ∈ mem, c.1 < cfg.memSize) : Inv (State.launch cfg mem) :=
  Inv.of_running rfl rfl hcfg hwf hrange

/-- Settles O21: reset is the launch with the default parameters and no byte listed. -/
theorem resetMeetsTheInvariant : Obligations.ResetMeetsTheInvariant :=
  ⟨Inv.launch (by decide) ⟨List.Pairwise.nil, nofun⟩ nofun, fun _ _ => Inv.launch⟩

/-- Settles O51: the loader changes memory alone, so that boot ends in a launch with the loaded memory. -/
theorem bootPlacesTheImage : Obligations.BootPlacesTheImage := by
  intro cfg image hcfg hfits
  obtain ⟨m, hload, hwf, hrange, helse, himage⟩ :=
    loadImage_of_fits (s := State.launch cfg []) ⟨List.Pairwise.nil, nofun⟩ nofun hfits
  exact ⟨State.launch cfg m, hload, Inv.launch hcfg hwf hrange, himage, helse, rfl⟩

end Sys2Proof.Machine
end

section
/-! SUPPORT. What a step does with the counter and the record (spec/10_state.md rules R31, R32), and the fetch beyond
the end of memory (R27). -/

namespace Sys2Proof.Machine

variable {s : State}

/-- What a stop other than HLT's leaves of the counter, the run state and the record (R116, R117). -/
theorem stoppedAt_counts_nothing {reason : StopReason} {op : Option Byte} (hhlt : reason ≠ .hltInstruction) :
    (stoppedAt s reason op).cycles = s.cycles ∧
      ∃ r, (stoppedAt s reason op).run = .halted ∧ (stoppedAt s reason op).stop = some r ∧
        r.reason ≠ .hltInstruction :=
  ⟨rfl, _, rfl, rfl, hhlt⟩

/-- Settles O16: the stops count nothing; a commit and the normal halt count one. -/
theorem cyclesCountsCommittedSteps : Obligations.CyclesCountsCommittedSteps := by
  intro s t hstop h
  obtain ⟨hrun, ⟨i, -, he⟩ | ⟨off, b, -, rfl⟩ | ⟨off, w, -, rfl⟩⟩ := step_cases h
  · rcases exec_cases he with ⟨r, rfl, hfault, -⟩ | ⟨-, rfl⟩ | ⟨-, u, rfl, hur, hus, huc, -⟩
    · refine .inr (stoppedAt_counts_nothing ?_)
      rintro rfl
      exact absurd hfault nofun
    · exact .inl ⟨rfl, .inr ⟨_, rfl, rfl, rfl⟩⟩
    · exact .inl ⟨by simp [huc], .inl ⟨by simp [hur, hrun], by simp [hus, hstop]⟩⟩
  · exact .inr (stoppedAt_counts_nothing nofun)
  · exact .inr (stoppedAt_counts_nothing nofun)

/-- No byte stands at or beyond `MEM_SIZE` (R53). -/
theorem fetchWindow_of_ge {a : Nat} (n : Nat) (h : s.cfg.memSize ≤ a) : fetchWindow s a n = [] := by
  have := fetchWindow_length s n a
  rw [← List.length_eq_zero_iff]
  omega

/-- An instruction cut short faults in place, at the address of the payload that is missing (R88, R116). -/
theorem step_of_cut {off : Nat} {w : Width} (hrun : s.run = .running)
    (hd : decode (fetchWindow s s.ip.toNat 5) = .cut off w) :
    step s = .next (stoppedAt s (.outOfBounds (s.ip.toNat + off) .read w) (fetchedLead s)) := by
  simp [step, fetch, decodeStop, hrun, hd, takeStop_eq, stoppedAt]

/-- Settles O13: the decoder sees no byte at all, and asks for the leading one. -/
theorem ipBeyondMemoryFaultsAtFetch : Obligations.IpBeyondMemoryFaultsAtFetch := by
  intro s hrun hip
  have hd : decode (fetchWindow s s.ip.toNat 5) = .cut 0 .byte := by rw [fetchWindow_of_ge 5 hip]; rfl
  rw [step_of_cut hrun hd, fetchedLead_of_ge s hip, Nat.add_zero]

end Sys2Proof.Machine
end

section
/-! SUPPORT. The frame of the instructions on registers (spec/10_state.md rules R20, R23): which register each effect
leaves alone, family by family, and from it the frame of every instruction. -/

namespace Sys2Proof.Machine

variable {s t : State} {a b : Source} {d : Dest} {v : Word} {r : Reg}

/-- Settles O24: the two laws of the register file, and that it is apart from the rest of the state. -/
theorem registerSetThenGet : Obligations.RegisterSetThenGet := fun s r v =>
  ⟨get_set_same s r v, fun _ hq => get_set_other s v hq, set_mem s r v, set_run s r v, set_stop s r v,
    set_cycles s r v, set_cfg s r v⟩

/-! ### What each effect leaves of the register file -/

theorem dst_keeps_get (h : dst d v s = .ok t) (hr : d ≠ .reg r) : t.get r = s.get r := by
  rcases dst_cases d v s with ⟨q, rfl, e⟩ | ⟨x, -, -, e⟩ | ⟨x, -, -, e⟩
  · cases e.symm.trans h
    exact get_set_other s v fun hq => hr (by rw [hq])
  · cases e.symm.trans h
    exact get_withMem s r _
  · simp [e] at h

theorem movEffect_keeps_get (h : movEffect a d s = .ok t) (hr : d ≠ .reg r) : t.get r = s.get r :=
  dst_keeps_get (movEffect_eq_ok.1 h).2 hr

theorem addEffect_keeps_get (h : addEffect a b s = .ok t) (hr : r ≠ .acc) : t.get r = s.get r := by
  obtain ⟨-, -, rfl⟩ := addEffect_eq_ok.1 h
  exact get_set_other s _ hr

theorem jneEffect_keeps_get (h : jneEffect a b s = .ok t) (hr : r ≠ .ip) : t.get r = s.get r := by
  obtain ⟨-, -, rfl⟩ := jneEffect_eq_ok.1 h
  split
  · exact get_set_other s _ hr
  · rfl

theorem pshEffect_keeps_get (h : pshEffect a s = .ok t) (hr : r ≠ .sp) : t.get r = s.get r := by
  obtain ⟨-, hpush⟩ := pshEffect_eq_ok.1 h
  obtain ⟨-, -, rfl⟩ := push_eq_ok.1 hpush
  rw [get_set_other _ _ hr, get_withMem]

theorem popEffect_keeps_get (h : popEffect d s = .ok t) (hd : d ≠ .reg r) (hr : r ≠ .sp) : t.get r = s.get r := by
  obtain ⟨-, -, u, hu, rfl⟩ := popEffect_eq_ok.1 h
  rw [get_set_other _ _ hr, dst_keeps_get hu hd]

theorem calEffect_keeps_get (h : calEffect a s = .ok t) (hip : r ≠ .ip) (hsp : r ≠ .sp) (hfp : r ≠ .fp) :
    t.get r = s.get r := by
  obtain ⟨-, hcall⟩ := calEffect_eq_ok.1 h
  obtain ⟨-, -, rfl⟩ := callTo_eq_ok.1 hcall
  rw [get_set_other _ _ hip, get_set_other _ _ hfp, get_set_other _ _ hsp, get_withMem]

/-- RET leaves alone what it does not restore: of the registers other than IP, that is ACC (R228). -/
theorem retEffect_keeps_get (h : retEffect s = .ok t) (hip : r ≠ .ip) (hr : r ∉ implicitDests .ret) :
    t.get r = s.get r := by
  obtain ⟨-, -, rfl⟩ := retEffect_eq_ok.1 h
  obtain ⟨h1, h2, h3, h4, hsp, hfp⟩ : r ≠ .r1 ∧ r ≠ .r2 ∧ r ≠ .r3 ∧ r ≠ .r4 ∧ r ≠ .sp ∧ r ≠ .fp := by
    simpa [implicitDests] using hr
  rw [get_set_other _ _ hfp, get_set_other _ _ hsp, get_set_other _ _ hip, get_set_other _ _ h4,
    get_set_other _ _ h3, get_set_other _ _ h2, get_set_other _ _ h1]

/-! ### The operation and the named destination of a form -/

@[simp] theorem operationOf_movOf (a : Source) (d : Dest) : operationOf (movOf a d) = some .mov := by
  cases a <;> cases d <;> simp [operationOf, movOf, leadByte, opField, opOfCode]
@[simp] theorem operationOf_addOf (a b : Source) : operationOf (addOf a b) = some .add := by
  cases a <;> cases b <;> simp [operationOf, addOf, leadByte, opField, opOfCode]
@[simp] theorem operationOf_jneOf (a b : Source) : operationOf (jneOf a b) = some .jne := by
  cases a <;> cases b <;> simp [operationOf, jneOf, leadByte, opField, opOfCode]
@[simp] theorem operationOf_pshOf (a : Source) : operationOf (pshOf a) = some .psh := by
  cases a <;> simp [operationOf, pshOf, leadByte, opField, opOfCode]
@[simp] theorem operationOf_popOf (d : Dest) : operationOf (popOf d) = some .pop := by
  cases d <;> simp [operationOf, popOf, leadByte, opField, opOfCode]
@[simp] theorem operationOf_calOf (a : Source) : operationOf (calOf a) = some .cal := by
  cases a <;> simp [operationOf, calOf, leadByte, opField, opOfCode]
@[simp] theorem operationOf_ret : operationOf .ret = some .ret := rfl

theorem namedDest_movOf_reg (a : Source) (r : Reg) : namedDest (movOf a (.reg r)) = some r := by cases a <;> rfl

theorem namedDest_popOf_reg (r : Reg) : namedDest (popOf (.reg r)) = some r := rfl

/-! ### The frame of a cycle -/

@[simp] theorem get_stoppedAt (s : State) (r : Reg) (reason : StopReason) (op : Option Byte) :
    (stoppedAt s reason op).get r = s.get r := by cases r <;> rfl

/-- A cycle leaves every register but IP alone that its effect leaves alone: the advance moves IP only, and a commit or
a stop writes no register (R25, R110, R116). -/
theorem runCycle_keeps_get {i : Instr} {e : State → Except StopReason State} (h : runCycle i e s = .next t)
    (hip : r ≠ .ip) (he : ∀ {u w : State}, e u = .ok w → w.get r = u.get r) : t.get r = s.get r := by
  rcases runCycle_cases h with ⟨w, hw, rfl⟩ | ⟨reason, -, rfl⟩
  · rw [get_commit, he hw, get_advance, if_neg hip]
  · exact get_stoppedAt ..

/-- Settles O28: family by family, the effect writes only registers that are IP, named or implicit. -/
theorem registersChangeOnlyAsNamed : Obligations.RegistersChangeOnlyAsNamed := by
  intro i op s t r h hop hip himp hnamed
  rcases instr_cases i with ⟨a, d, rfl⟩ | ⟨a, b, rfl⟩ | ⟨a, b, rfl⟩ | ⟨a, rfl⟩ | ⟨d, rfl⟩ | ⟨a, rfl⟩ | rfl | rfl
  · rw [exec_movOf] at h
    have hd : d ≠ .reg r := by rintro rfl; exact hnamed (namedDest_movOf_reg a r)
    exact runCycle_keeps_get h hip fun hu => movEffect_keeps_get hu hd
  · rw [exec_addOf] at h
    have hr : r ≠ .acc := by cases hop.symm.trans (operationOf_addOf a b); simpa [implicitDests] using himp
    exact runCycle_keeps_get h hip fun hu => addEffect_keeps_get hu hr
  · rw [exec_jneOf] at h
    exact runCycle_keeps_get h hip fun hu => jneEffect_keeps_get hu hip
  · rw [exec_pshOf] at h
    have hr : r ≠ .sp := by cases hop.symm.trans (operationOf_pshOf a); simpa [implicitDests] using himp
    exact runCycle_keeps_get h hip fun hu => pshEffect_keeps_get hu hr
  · rw [exec_popOf] at h
    have hr : r ≠ .sp := by cases hop.symm.trans (operationOf_popOf d); simpa [implicitDests] using himp
    have hd : d ≠ .reg r := by rintro rfl; exact hnamed (namedDest_popOf_reg r)
    exact runCycle_keeps_get h hip fun hu => popEffect_keeps_get hu hd hr
  · rw [exec_calOf] at h
    obtain ⟨hsp, hfp⟩ : r ≠ .sp ∧ r ≠ .fp := by
      cases hop.symm.trans (operationOf_calOf a); simpa [implicitDests] using himp
    exact runCycle_keeps_get h hip fun hu => calEffect_keeps_get hu hip hsp hfp
  · rw [exec_ret] at h
    cases hop.symm.trans operationOf_ret
    exact runCycle_keeps_get h hip fun hu => retEffect_keeps_get hu hip himp
  · cases h
    rw [get_halt, get_commit, get_advance, if_neg hip]

end Sys2Proof.Machine
end

section
/-! SUPPORT. The stack grows downwards only (spec/10_state.md rule R28, spec/20_memory.md rule R62): a push and a call
leave every byte at or above SP alone. -/

namespace Sys2Proof.Machine

variable {s t : State} {a : Source} {x : Nat}

/-- A cycle leaves every byte alone that its effect leaves alone: neither the advance, nor a commit, nor a stop writes
memory (R110, R116). -/
theorem runCycle_keeps_byteAt {i : Instr} {e : State → Except StopReason State} (h : runCycle i e s = .next t)
    (he : ∀ w, e (s.advance (instrLength i)) = .ok w → w.byteAt x = s.byteAt x) : t.byteAt x = s.byteAt x := by
  rcases runCycle_cases h with ⟨w, hw, rfl⟩ | ⟨reason, -, rfl⟩
  · rw [byteAt_commit, he w hw]
  · rfl

/-- A push writes the two bytes below SP (R200). -/
theorem pshEffect_keeps_byteAt (hw : Memory.wf s.mem) (hx : s.sp.toNat ≤ x) (h : pshEffect a s = .ok t) :
    t.byteAt x = s.byteAt x := by
  obtain ⟨-, hpush⟩ := pshEffect_eq_ok.1 h
  obtain ⟨hbottom, -, rfl⟩ := push_eq_ok.1 hpush
  rw [byteAt_set]
  exact Memory.get_setWord_other _ hw (by omega) (by omega)

/-- A call writes the twelve bytes below SP (R220, R222). -/
theorem calEffect_keeps_byteAt (hw : Memory.wf s.mem) (hx : s.sp.toNat ≤ x) (h : calEffect a s = .ok t) :
    t.byteAt x = s.byteAt x := by
  obtain ⟨-, hcall⟩ := calEffect_eq_ok.1 h
  obtain ⟨hbottom, -, rfl⟩ := callTo_eq_ok.1 hcall
  simp only [byteAt_set]
  exact frameMem_other hw (by omega) (.inr hx)

/-- Settles O49: a byte at or above `STACK_TOP` is at or above SP, and a push and a call write below SP only. -/
theorem pushesStayBelowStackTop : Obligations.PushesStayBelowStackTop := by
  intro i s t a hi hw hsp h x hx
  have habove : s.sp.toNat ≤ x := hsp.trans hx
  rcases hi with rfl | rfl
  · rw [exec_pshOf] at h
    exact runCycle_keeps_byteAt h fun _ => pshEffect_keeps_byteAt hw habove
  · rw [exec_calOf] at h
    exact runCycle_keeps_byteAt h fun _ => calEffect_keeps_byteAt hw habove

end Sys2Proof.Machine
end

section
/-! SUPPORT. The memory accessors (spec/20_memory.md rules R51 to R59): where they raise, and what is read back after a
write. -/

namespace Sys2Proof.Machine

variable {s : State} {a : Nat}

theorem readByte_of_lt (h : a < s.cfg.memSize) : readByte a s = .ok (s.byteAt a) := by simp [readByte, h]

theorem readByte_of_ge (h : ¬ a < s.cfg.memSize) : readByte a s = .error (.outOfBounds a .read .byte) := by
  simp [readByte, h]

theorem writeByte_of_lt (b : Byte) (h : a < s.cfg.memSize) :
    writeByte a b s = .ok { s with mem := Memory.set s.mem a b } := by simp [writeByte, h]

theorem writeByte_of_ge (b : Byte) (h : ¬ a < s.cfg.memSize) :
    writeByte a b s = .error (.outOfBounds a .write .byte) := by simp [writeByte, h]

/-- The number a word reads as, from its bytes: the byte at the lower address is the more significant (R52). -/
theorem wordAt_toNat (s : State) (a : Nat) :
    (s.wordAt a).toNat = (s.byteAt a).toNat * 256 + (s.byteAt (a + 1)).toNat := wordOfBytes_toNat _ _

/-- Settles O25: each accessor is one bound test. -/
theorem accessorsCheckBounds : Obligations.AccessorsCheckBounds := by
  intro s a
  refine ⟨fun h => ?byteOut, fun h => ?wordOut, fun h => ?byteIn, fun h => ?wordIn⟩
  case byteOut => exact ⟨readByte_of_ge (by omega), fun b => writeByte_of_ge b (by omega)⟩
  case wordOut => exact ⟨readWord_of_ge (by omega), fun v => writeWord_of_ge v (by omega)⟩
  case byteIn => exact readByte_of_lt h
  case wordIn => exact ⟨_, readWord_of_lt h, wordAt_toNat s a⟩

/-! ### What is read after a word is written -/

theorem byteAt_setWord_hi (v : Word) (hw : Memory.wf s.mem) :
    { s with mem := Memory.setWord s.mem a v }.byteAt a = hiByte v := Memory.get_setWord_hi a v hw

theorem byteAt_setWord_lo (v : Word) (hw : Memory.wf s.mem) :
    { s with mem := Memory.setWord s.mem a v }.byteAt (a + 1) = loByte v := Memory.get_setWord_lo a v hw

theorem byteAt_setWord_other {x : Nat} (v : Word) (hw : Memory.wf s.mem) (h0 : x ≠ a) (h1 : x ≠ a + 1) :
    { s with mem := Memory.setWord s.mem a v }.byteAt x = s.byteAt x := Memory.get_setWord_other v hw h0 h1

/-- Settles O26: a word write is the update of two bytes of memory, or a raise. -/
theorem wordWrittenIsReadBack : Obligations.WordWrittenIsReadBack := by
  intro s a v hw
  refine ⟨fun h => writeWord_of_ge v (by omega), fun h => ⟨_, writeWord_of_lt v h, ?word, ?bytes, ?others,
    fun r => get_withMem s r _, rfl, rfl, rfl, rfl⟩⟩
  case word => exact readWord_eq_ok.2 ⟨h, (wordAt_setWord_same v hw).symm⟩
  case bytes =>
    exact ⟨hiByte v, loByte v, readByte_eq_ok.2 ⟨Nat.lt_of_succ_lt h, (byteAt_setWord_hi v hw).symm⟩,
      readByte_eq_ok.2 ⟨h, (byteAt_setWord_lo v hw).symm⟩, hiByte_toNat v, loByte_toNat v⟩
  case others => exact fun x => byteAt_setWord_other v hw

/-- Settles O27: a word write is the two byte writes, more significant byte first, so the word of the two bytes is read
back. -/
theorem twoBytesMakeTheWord : Obligations.TwoBytesMakeTheWord := by
  intro s a hi lo hw h
  refine ⟨_, _, writeByte_of_lt hi (Nat.lt_of_succ_lt h), writeByte_of_lt lo h, wordOfBytes hi lo,
    readWord_eq_ok.2 ⟨h, ?_⟩, wordOfBytes_toNat hi lo⟩
  have hback := wordAt_setWord_same (s := s) (a := a) (wordOfBytes hi lo) hw
  rw [Memory.setWord, hiByte_wordOfBytes, loByte_wordOfBytes] at hback
  exact hback.symm

end Sys2Proof.Machine
end

section
/-! SUPPORT. The frame of the instructions on memory (spec/20_memory.md rule R60, spec/40_cycle_operands.md rule R114):
which bytes each effect leaves alone, family by family, and from it the frame of every instruction. -/

namespace Sys2Proof.Machine

variable {s t : State} {a b : Source} {d : Dest} {v : Word} {x y : Nat}

/-! ### What each effect leaves of memory -/

/-- A write to a destination leaves every byte alone that is not one of the two at its address; to a register, every
byte (R114). -/
theorem dst_keeps_byteAt (hw : Memory.wf s.mem) (hx : ∀ y, destAddr d s = some y → x < y ∨ y + 2 ≤ x)
    (h : dst d v s = .ok t) : t.byteAt x = s.byteAt x := by
  rcases dst_cases d v s with ⟨r, -, e⟩ | ⟨y, hy, -, e⟩ | ⟨y, -, -, e⟩
  · cases e.symm.trans h
    exact byteAt_set s r v x
  · cases e.symm.trans h
    have := hx _ hy
    exact byteAt_setWord_other v hw (by omega) (by omega)
  · simp [e] at h

theorem movEffect_keeps_byteAt (hw : Memory.wf s.mem) (hx : ∀ y, destAddr d s = some y → x < y ∨ y + 2 ≤ x)
    (h : movEffect a d s = .ok t) : t.byteAt x = s.byteAt x :=
  dst_keeps_byteAt hw hx (movEffect_eq_ok.1 h).2

theorem popEffect_keeps_byteAt (hw : Memory.wf s.mem) (hx : ∀ y, destAddr d s = some y → x < y ∨ y + 2 ≤ x)
    (h : popEffect d s = .ok t) : t.byteAt x = s.byteAt x := by
  obtain ⟨-, -, u, hu, rfl⟩ := popEffect_eq_ok.1 h
  rw [byteAt_set, dst_keeps_byteAt hw hx hu]

theorem addEffect_keeps_byteAt (h : addEffect a b s = .ok t) : t.byteAt x = s.byteAt x := by
  obtain ⟨-, -, rfl⟩ := addEffect_eq_ok.1 h
  exact byteAt_set ..

theorem jneEffect_keeps_byteAt (h : jneEffect a b s = .ok t) : t.byteAt x = s.byteAt x := by
  obtain ⟨-, -, rfl⟩ := jneEffect_eq_ok.1 h
  split
  · exact byteAt_set ..
  · rfl

theorem retEffect_keeps_byteAt (h : retEffect s = .ok t) : t.byteAt x = s.byteAt x := by
  obtain ⟨-, -, rfl⟩ := retEffect_eq_ok.1 h
  simp only [byteAt_set]

/-- A push leaves the bytes below its word alone (R200); those above it are `pshEffect_keeps_byteAt`'s. -/
theorem pshEffect_keeps_byteAt_below (hw : Memory.wf s.mem) (hx : x < s.sp.toNat - 2)
    (h : pshEffect a s = .ok t) : t.byteAt x = s.byteAt x := by
  obtain ⟨-, hpush⟩ := pshEffect_eq_ok.1 h
  obtain ⟨-, -, rfl⟩ := push_eq_ok.1 hpush
  rw [byteAt_set]
  exact byteAt_setWord_other _ hw (by omega) (by omega)

/-- A call leaves the bytes below its frame alone (R220, R222); those above it are `calEffect_keeps_byteAt`'s. -/
theorem calEffect_keeps_byteAt_below (hw : Memory.wf s.mem) (hx : x < s.sp.toNat - 12)
    (h : calEffect a s = .ok t) : t.byteAt x = s.byteAt x := by
  obtain ⟨-, hcall⟩ := calEffect_eq_ok.1 h
  obtain ⟨-, -, rfl⟩ := callTo_eq_ok.1 hcall
  simp only [byteAt_set]
  exact frameMem_other hw (by omega) (.inl hx)

/-! ### The range a form stores to -/

theorem storeRange_movOf (h : destAddr d (s.advance (instrLength (movOf a d))) = some y) :
    storeRange (movOf a d) s = (y, 2) := by
  cases d with
  | reg r => cases h
  | dir addr => cases h; cases a <;> rfl
  | ind r => cases h; cases a <;> rfl

theorem storeRange_popOf (h : destAddr d (s.advance (instrLength (popOf d))) = some y) :
    storeRange (popOf d) s = (y, 2) := by
  cases d with
  | reg r => cases h
  | dir addr => cases h; rfl
  | ind r => cases h; rfl

theorem storeRange_pshOf (a : Source) (s : State) : storeRange (pshOf a) s = (s.sp.toNat - 2, 2) := by
  cases a <;> rfl

theorem storeRange_calOf (a : Source) (s : State) : storeRange (calOf a) s = (s.sp.toNat - 12, 12) := by
  cases a <;> rfl

/-! ### The frame of an instruction -/

theorem exec_pshOf_keeps_byteAt (hw : Memory.wf s.mem) (hx : x < s.sp.toNat - 2 ∨ s.sp.toNat ≤ x)
    (h : exec (pshOf a) s = .next t) : t.byteAt x = s.byteAt x := by
  rw [exec_pshOf] at h
  rcases hx with hx | hx
  · exact runCycle_keeps_byteAt h fun _ => pshEffect_keeps_byteAt_below hw hx
  · exact runCycle_keeps_byteAt h fun _ => pshEffect_keeps_byteAt hw hx

theorem exec_calOf_keeps_byteAt (hw : Memory.wf s.mem) (hx : x < s.sp.toNat - 12 ∨ s.sp.toNat ≤ x)
    (h : exec (calOf a) s = .next t) : t.byteAt x = s.byteAt x := by
  rw [exec_calOf] at h
  rcases hx with hx | hx
  · exact runCycle_keeps_byteAt h fun _ => calEffect_keeps_byteAt_below hw hx
  · exact runCycle_keeps_byteAt h fun _ => calEffect_keeps_byteAt hw hx

/-- Settles O29: family by family, the effect writes only bytes of the range. -/
theorem memoryChangesOnlyWhereStored : Obligations.MemoryChangesOnlyWhereStored := by
  intro i s t hw h x hx
  rcases instr_cases i with ⟨a, d, rfl⟩ | ⟨a, b, rfl⟩ | ⟨a, b, rfl⟩ | ⟨a, rfl⟩ | ⟨d, rfl⟩ | ⟨a, rfl⟩ | rfl | rfl
  · rw [exec_movOf] at h
    refine runCycle_keeps_byteAt h fun _ => movEffect_keeps_byteAt hw fun y hy => ?_
    simpa only [storeRange_movOf hy] using hx
  · rw [exec_addOf] at h
    exact runCycle_keeps_byteAt h fun _ => addEffect_keeps_byteAt
  · rw [exec_jneOf] at h
    exact runCycle_keeps_byteAt h fun _ => jneEffect_keeps_byteAt
  · rw [storeRange_pshOf] at hx
    exact exec_pshOf_keeps_byteAt hw (by dsimp only at hx; omega) h
  · rw [exec_popOf] at h
    refine runCycle_keeps_byteAt h fun _ => popEffect_keeps_byteAt hw fun y hy => ?_
    simpa only [storeRange_popOf hy] using hx
  · rw [storeRange_calOf] at hx
    exact exec_calOf_keeps_byteAt hw (by dsimp only at hx; omega) h
  · rw [exec_ret] at h
    exact runCycle_keeps_byteAt h fun _ => retEffect_keeps_byteAt
  · cases h
    rfl

end Sys2Proof.Machine
end

section
/-! SUPPORT. Instructions in memory (spec/20_memory.md rules R57, R65, spec/30_encoding.md rule R88): the window at IP
begins with the bytes memory holds there, the decoder reads an instruction back from its bytes, and so a step runs what
stands at IP, a word just stored included, or faults where memory ends. -/

namespace Sys2Proof.Machine

variable {s : State} {a : Source} {d : Dest} {x : Nat}

/-! ### The decoder on the encoder's bytes -/

theorem decodeFB_bytes (mk : Reg → Instr) (p : Reg) (rest : List Byte) :
    decodeFB mk (regByte p :: rest) = .instr (mk p) := takeReg_byte ..

theorem decodeFW_bytes (mk : Word → Instr) (p : Word) (rest : List Byte) :
    decodeFW mk (hiByte p :: loByte p :: rest) = .instr (mk p) := by
  rw [decodeFW, takeWord_bytes, wordOfBytes_hi_lo]

theorem decodeFBB_bytes (mk : Reg → Reg → Instr) (p q : Reg) (rest : List Byte) :
    decodeFBB mk (regByte p :: regByte q :: rest) = .instr (mk p q) := by
  rw [decodeFBB, takeReg_byte, takeReg_byte]

theorem decodeFBW_bytes (mk : Reg → Word → Instr) (p : Reg) (q : Word) (rest : List Byte) :
    decodeFBW mk (regByte p :: hiByte q :: loByte q :: rest) = .instr (mk p q) := by
  rw [decodeFBW, takeReg_byte, takeWord_bytes, wordOfBytes_hi_lo]

theorem decodeFWB_bytes (mk : Word → Reg → Instr) (p : Word) (q : Reg) (rest : List Byte) :
    decodeFWB mk (hiByte p :: loByte p :: regByte q :: rest) = .instr (mk p q) := by
  rw [decodeFWB, takeWord_bytes, takeReg_byte, wordOfBytes_hi_lo]

theorem decodeFWW_bytes (mk : Word → Word → Instr) (p q : Word) (rest : List Byte) :
    decodeFWW mk (hiByte p :: loByte p :: hiByte q :: loByte q :: rest) = .instr (mk p q) := by
  rw [decodeFWW, takeWord_bytes, takeWord_bytes, wordOfBytes_hi_lo, wordOfBytes_hi_lo]

/-- The decoder reads an instruction back from its bytes, whatever bytes follow: by the seven layouts of R87. -/
theorem decode_encode_append (i : Instr) (rest : List Byte) : decode (encode i ++ rest) = .instr i := by
  cases i with
  | ret | hlt => rfl
  | pshR p | pshI p | popR p | popI p | calR p | calI p => exact decodeFB_bytes _ p rest
  | pshL p | pshD p | popD p | calL p | calD p => exact decodeFW_bytes _ p rest
  | movRR p q | movRI p q | movIR p q | movII p q | addRR p q | addRI p q | addIR p q | addII p q | jneRR p q
  | jneRI p q | jneIR p q | jneII p q => exact decodeFBB_bytes _ p q rest
  | movRD p q | movID p q | addRL p q | addRD p q | addIL p q | addID p q | jneRL p q | jneRD p q | jneIL p q
  | jneID p q => exact decodeFBW_bytes _ p q rest
  | movLR p q | movLI p q | movDR p q | movDI p q | addLR p q | addLI p q | addDR p q | addDI p q | jneLR p q
  | jneLI p q | jneDR p q | jneDI p q => exact decodeFWB_bytes _ p q rest
  | movLD p q | movDD p q | addLL p q | addLD p q | addDL p q | addDD p q | jneLL p q | jneLD p q | jneDL p q
  | jneDD p q => exact decodeFWW_bytes _ p q rest

/-- No instruction is longer than the window the decoder is given (R80, R86). -/
theorem instrLength_le_five (i : Instr) : instrLength i ≤ 5 := by
  cases i <;> simp [instrLength, encode, payloadBytes]

/-! ### The window at IP -/

/-- Where memory holds the bytes `bs` from `x` on, a window there that is long enough begins with them. -/
theorem fetchWindow_of_bytes {bs : List Byte} {x n : Nat} (hn : bs.length ≤ n) (hx : x + bs.length ≤ s.cfg.memSize)
    (hbs : ∀ k, k < bs.length → bs[k]? = some (s.byteAt (x + k))) :
    fetchWindow s x n = bs ++ fetchWindow s (x + bs.length) (n - bs.length) := by
  induction bs generalizing x n with
  | nil => rfl
  | cons b bs ih =>
    rw [List.length_cons] at hn hx
    obtain ⟨m, rfl⟩ : ∃ m, n = m + 1 := ⟨n - 1, by omega⟩
    have hb : b = s.byteAt x := by simpa using hbs 0 (by simp)
    have htail : fetchWindow s (x + 1) m = bs ++ fetchWindow s (x + 1 + bs.length) (m - bs.length) := by
      refine ih (by omega) (by omega) fun k hk => ?_
      simpa [Nat.add_assoc, Nat.add_comm 1 k] using hbs (k + 1) (by simpa using hk)
    simp only [fetchWindow, readByte_of_lt (s := s) (a := x) (by omega), htail, hb, List.length_cons,
      List.cons_append, Nat.add_sub_add_right, Nat.add_assoc, Nat.add_comm 1]

/-! ### What a step makes of the window -/

theorem step_of_instr {i : Instr} (hrun : s.run = .running) (hd : decode (fetchWindow s s.ip.toNat 5) = .instr i) :
    step s = exec i s := by simp [step, fetch, hrun, hd]

/-- Settles O9: the window at IP begins with the instruction's bytes, and the decoder reads it back from them. -/
theorem stepRunsTheInstructionInMemory : Obligations.StepRunsTheInstructionInMemory := by
  intro s i hrun hfits hbytes
  apply step_of_instr hrun
  rw [fetchWindow_of_bytes (instrLength_le_five i) hfits hbytes]
  exact decode_encode_append i _

/-- Settles O14: fewer than five bytes were there, so the window ended where memory ends. -/
theorem truncatedInstructionFaults : Obligations.TruncatedInstructionFaults := by
  intro s off w hrun hip hd
  obtain ⟨hbegins, hends, hshort⟩ := decode_eq_cut hd
  have hlen : (fetchWindow s s.ip.toNat 5).length = s.cfg.memSize - s.ip.toNat := by
    have := fetchWindow_length s 5 s.ip.toNat
    omega
  rw [hlen] at hbegins hends
  refine ⟨by omega, ?_, ?_⟩
  · cases w with
    | byte => dsimp only at hends ⊢; omega
    | word => dsimp only at hends ⊢; omega
  · rw [step_of_cut hrun hd, fetchedLead_of_lt s hip]

/-! ### A store where execution goes on -/

/-- A MOV to memory whose operands lie inside memory commits the store of the source's value, and nothing else after the
advance (R140). -/
theorem exec_movOf_of_fits (hsrc : sourceFits a (s.advance (instrLength (movOf a d))) = true)
    (hdst : destAddr d (s.advance (instrLength (movOf a d))) = some x) (hx : x + 1 < s.cfg.memSize) :
    exec (movOf a d) s = .next (State.commit { s.advance (instrLength (movOf a d)) with
      mem := Memory.setWord s.mem x (sourceValue a (s.advance (instrLength (movOf a d)))) }) := by
  rw [exec_movOf]
  exact runCycle_of_ok (movEffect_eq_ok.2 ⟨hsrc, dst_of_fits hdst hx⟩)

/-- Settles O30: the two bytes stored stand at the address IP has, so the window there is these two bytes. -/
theorem storeIsSeenByTheNextFetch : Obligations.StoreIsSeenByTheNextFetch := by
  intro s t a d x u hw hsrc hdst hx hip h
  cases (exec_movOf_of_fits hsrc hdst hx).symm.trans h
  rw [commit_ip, ← hip]
  refine fetchWindow_of_bytes (bs := [hiByte (sourceValue a u), loByte (sourceValue a u)]) le_rfl hx fun k hk => ?_
  match k, hk with
  | 0, _ => exact congrArg some (byteAt_setWord_hi (s := u) _ hw).symm
  | 1, _ => exact congrArg some (byteAt_setWord_lo (s := u) _ hw).symm

end Sys2Proof.Machine
end

section
/-! SUPPORT. The encoding (spec/30_encoding.md rules R81 to R92): the seven byte layouts of R87 as a relation between
the modes a leading byte states, the way the decoder reads the bytes after it and the bytes of the instructions so
read; and from it that encodings, decodable bytes and well-formed images are the same. -/

namespace Sys2Proof

variable {b0 : Byte} {bs : List Byte} {i : Instr} {m : Mode} {ms : List Mode} {f : List Byte → Decoded}

/-- Settles O1: by evaluation of the decoder on the nine words. -/
theorem writtenOutWordsDecode : Obligations.WrittenOutWordsDecode := by
  unfold Obligations.WrittenOutWordsDecode
  decide

/-- Settles O2: by the layouts, one case for each (`Machine.decode_encode_append`). -/
theorem decodeOfEncodeGivesTheInstruction : Obligations.DecodeOfEncodeGivesTheInstruction :=
  Machine.decode_encode_append

/-! ### The bytes of an instruction are a well-formed image -/

open Laws.EncodingShape in
/-- The laws stated per instruction, as one. -/
theorem encodingShape (i : Instr) : Statement i := by
  cases i
  exacts [movLR .., movLD .., movLI .., movRR .., movRD .., movRI .., movDR .., movDD .., movDI .., movIR .., movID ..,
    movII .., addLL .., addLR .., addLD .., addLI .., addRL .., addRR .., addRD .., addRI .., addDL .., addDR ..,
    addDD .., addDI .., addIL .., addIR .., addID .., addII .., jneLL .., jneLR .., jneLD .., jneLI .., jneRL ..,
    jneRR .., jneRD .., jneRI .., jneDL .., jneDR .., jneDD .., jneDI .., jneIL .., jneIR .., jneID .., jneII ..,
    pshL .., pshR .., pshD .., pshI .., popR .., popD .., popI .., calL .., calR .., calD .., calI .., ret, hlt]

/-- The payload bytes are as many as the modes ask for, and their registers are named (R86, R90). -/
def PayloadFits (ms : List Mode) (bs : List Byte) : Prop :=
  bs.length = (ms.map Mode.payloadSize).sum ∧ registersNamed ms bs = true

/-- The four checks of an image, in two: the leading byte's and the payload's. -/
theorem image_wf_iff :
    Image.wf ⟨b0, bs⟩ = true ↔ leadAssigned b0 = true ∧ PayloadFits (operandModes b0) bs := by
  have hlead : leadAssigned b0 = (Image.opAssigned ⟨b0, bs⟩ && Image.modesAdmitted ⟨b0, bs⟩) := rfl
  simp only [Image.wf, Image.lengthRight, lengthOfLead, PayloadFits, hlead, Nat.add_comm 1, Bool.and_eq_true,
    beq_iff_eq, Nat.add_right_cancel_iff, and_assoc]

/-- Settles O5: the payload of a well-formed image has the sizes R86 adds up. -/
theorem lengthFollowsFromLeadingByte : Obligations.LengthFollowsFromLeadingByte := by
  refine ⟨fun i => ⟨?_, Nat.succ_pos _, Machine.instrLength_le_five i⟩, rfl, rfl⟩
  obtain ⟨-, hlen, -⟩ := image_wf_iff.1 (encodingShape i)
  rw [instrLength, encode, List.length_cons, hlen, lengthOfLead, Nat.add_comm]

/-! ### The seven layouts -/

/-- The modes with a register payload are those whose payload is one byte (R84, R86). -/
theorem payloadSize_eq_one : m.payloadSize = 1 ↔ m = .reg ∨ m = .ind := by cases m <;> decide

/-- The modes with a word payload are those whose payload is two bytes (R84, R86). -/
theorem payloadSize_eq_two : m.payloadSize = 2 ↔ m = .lit ∨ m = .dir := by cases m <;> decide

/-- The seven byte layouts of R87. `Layout b0 ms f`: with operands of the modes `ms`, the bytes after the leading byte
`b0` are read by `f`, and the instructions read are encoded with `b0` and these payloads. -/
inductive Layout (b0 : Byte) : List Mode → (List Byte → Decoded) → Prop where
  | F {i : Instr} (henc : encode i = [b0]) : Layout b0 [] fun _ => .instr i
  | FB {mk : Reg → Instr} {m : Mode} (hm : m.payloadSize = 1)
      (henc : ∀ p, encode (mk p) = [b0, regByte p]) : Layout b0 [m] (decodeFB mk)
  | FW {mk : Word → Instr} {m : Mode} (hm : m.payloadSize = 2)
      (henc : ∀ p, encode (mk p) = [b0, hiByte p, loByte p]) : Layout b0 [m] (decodeFW mk)
  | FBB {mk : Reg → Reg → Instr} {m n : Mode} (hm : m.payloadSize = 1) (hn : n.payloadSize = 1)
      (henc : ∀ p q, encode (mk p q) = [b0, regByte p, regByte q]) : Layout b0 [m, n] (decodeFBB mk)
  | FBW {mk : Reg → Word → Instr} {m n : Mode} (hm : m.payloadSize = 1) (hn : n.payloadSize = 2)
      (henc : ∀ p q, encode (mk p q) = [b0, regByte p, hiByte q, loByte q]) : Layout b0 [m, n] (decodeFBW mk)
  | FWB {mk : Word → Reg → Instr} {m n : Mode} (hm : m.payloadSize = 2) (hn : n.payloadSize = 1)
      (henc : ∀ p q, encode (mk p q) = [b0, hiByte p, loByte p, regByte q]) : Layout b0 [m, n] (decodeFWB mk)
  | FWW {mk : Word → Word → Instr} {m n : Mode} (hm : m.payloadSize = 2) (hn : n.payloadSize = 2)
      (henc : ∀ p q, encode (mk p q) = [b0, hiByte p, loByte p, hiByte q, loByte q]) : Layout b0 [m, n] (decodeFWW mk)

/-- The opcode map (R92) agrees with the fields (R81 to R83): after the leading byte of an instruction, the decoder
reads the layout of the modes the byte states. -/
theorem layout_of_leadByte (i : Instr) :
    ∃ f, (∀ bs, decode (leadByte i :: bs) = f bs) ∧ Layout (leadByte i) (operandModes (leadByte i)) f := by
  cases i with simp only [leadByte]
  | ret | hlt => exact ⟨fun _ => .instr _, fun _ => rfl, .F rfl⟩
  | pshR | pshI | popR | popI | calR | calI => exact ⟨decodeFB _, fun _ => rfl, .FB rfl fun _ => rfl⟩
  | pshL | pshD | popD | calL | calD => exact ⟨decodeFW _, fun _ => rfl, .FW rfl fun _ => rfl⟩
  | movRR | movRI | movIR | movII | addRR | addRI | addIR | addII | jneRR | jneRI | jneIR | jneII =>
    exact ⟨decodeFBB _, fun _ => rfl, .FBB rfl rfl fun _ _ => rfl⟩
  | movRD | movID | addRL | addRD | addIL | addID | jneRL | jneRD | jneIL | jneID =>
    exact ⟨decodeFBW _, fun _ => rfl, .FBW rfl rfl fun _ _ => rfl⟩
  | movLR | movLI | movDR | movDI | addLR | addLI | addDR | addDI | jneLR | jneLI | jneDR | jneDI =>
    exact ⟨decodeFWB _, fun _ => rfl, .FWB rfl rfl fun _ _ => rfl⟩
  | movLD | movDD | addLL | addLD | addDL | addDD | jneLL | jneLD | jneDL | jneDD =>
    exact ⟨decodeFWW _, fun _ => rfl, .FWW rfl rfl fun _ _ => rfl⟩

/-! ### Decodable bytes are encodings -/

/-- What a layout reads as an instruction are that instruction's bytes. -/
theorem Layout.encode_of_instr (hl : Layout b0 ms f) (h : f bs = .instr i) : ∃ rest, b0 :: bs = encode i ++ rest := by
  cases hl with
  | F henc =>
    cases h
    exact ⟨bs, by rw [henc]; rfl⟩
  | FB hm henc =>
    obtain ⟨p, rest, rfl, rfl⟩ := decodeFB_eq_instr h
    exact ⟨rest, by rw [henc]; rfl⟩
  | FW hm henc =>
    obtain ⟨p, rest, rfl, rfl⟩ := decodeFW_eq_instr h
    exact ⟨rest, by rw [henc]; rfl⟩
  | FBB hm hn henc =>
    obtain ⟨p, q, rest, rfl, rfl⟩ := decodeFBB_eq_instr h
    exact ⟨rest, by rw [henc]; rfl⟩
  | FBW hm hn henc =>
    obtain ⟨p, q, rest, rfl, rfl⟩ := decodeFBW_eq_instr h
    exact ⟨rest, by rw [henc]; rfl⟩
  | FWB hm hn henc =>
    obtain ⟨p, q, rest, rfl, rfl⟩ := decodeFWB_eq_instr h
    exact ⟨rest, by rw [henc]; rfl⟩
  | FWW hm hn henc =>
    obtain ⟨p, q, rest, rfl, rfl⟩ := decodeFWW_eq_instr h
    exact ⟨rest, by rw [henc]; rfl⟩

/-- Settles O3: the bytes begin with the instruction's leading byte, and its layout reads the others. -/
theorem decodedBytesAreTheEncoding : Obligations.DecodedBytesAreTheEncoding := by
  intro bs i h
  cases bs with
  | nil => cases h
  | cons b0 bs =>
    cases leadByte_of_decode h
    obtain ⟨f, hf, hl⟩ := layout_of_leadByte i
    exact hl.encode_of_instr ((hf bs).symm.trans h)

/-! ### Assigned leading bytes -/

/-- The verdict on the leading byte is given without the bytes after it (R89). -/
theorem decode_illegal_lead_congr (bs bs' : List Byte) (h : decode (b0 :: bs) = .illegal 0 b0) :
    decode (b0 :: bs') = .illegal 0 b0 := by
  rcases decode_cons b0 with ⟨i, hd⟩ | ⟨f, hf, hd⟩ | hd
  · cases (hd bs).symm.trans h
  · obtain ⟨k, hk, -⟩ := hf.illegal _ _ _ ((hd bs).symm.trans h)
    cases hk
  · exact hd bs'

/-- The fields (R82, R85) against the opcode map (R92), for each of the 256 leading bytes. -/
theorem leadAssigned_eq_false_iff_alone :
    ∀ b0 : Byte, leadAssigned b0 = false ↔ decode [b0] = .illegal 0 b0 := by decide

theorem leadAssigned_eq_false_iff (b0 : Byte) (bs : List Byte) :
    leadAssigned b0 = false ↔ decode (b0 :: bs) = .illegal 0 b0 :=
  (leadAssigned_eq_false_iff_alone b0).trans ⟨decode_illegal_lead_congr [] bs, decode_illegal_lead_congr bs []⟩

/-- Four zero bytes are payload enough for every layout, and legal in each: 0 is the number of IP. -/
theorem FormatFaults.zeros_eq_instr (hf : FormatFaults f) : ∃ i, f [0, 0, 0, 0] = .instr i := by
  cases h : f [0, 0, 0, 0] with
  | instr i => exact ⟨i, rfl⟩
  | illegal off b =>
    obtain ⟨k, -, hk, hb⟩ := hf.illegal _ _ _ h
    have hzero : b ∈ [(0 : Byte), 0, 0, 0] := List.mem_of_getElem? hk
    obtain rfl : b = 0 := by simpa using hzero
    cases hb
  | cut off w =>
    obtain ⟨k, -, -, -, hshort⟩ := hf.cut _ _ _ h
    simp at hshort

/-- The assigned leading bytes are those of instructions. -/
theorem exists_leadByte_eq (h : leadAssigned b0 = true) : ∃ i, leadByte i = b0 := by
  rcases decode_cons b0 with ⟨i, hd⟩ | ⟨f, hf, hd⟩ | hd
  · exact ⟨i, leadByte_of_decode (hd [])⟩
  · obtain ⟨i, hi⟩ := hf.zeros_eq_instr
    exact ⟨i, leadByte_of_decode ((hd _).trans hi)⟩
  · simp [(leadAssigned_eq_false_iff b0 []).2 (hd [])] at h

theorem layout_of_assigned (h : leadAssigned b0 = true) :
    ∃ f, (∀ bs, decode (b0 :: bs) = f bs) ∧ Layout b0 (operandModes b0) f := by
  obtain ⟨i, rfl⟩ := exists_leadByte_eq h
  exact layout_of_leadByte i

/-- Settles O6: both halves by evaluation over the leading byte alone, which decides the verdict on it. -/
theorem unassignedLeadingBytesAreIllegal : Obligations.UnassignedLeadingBytesAreIllegal :=
  ⟨by decide, leadAssigned_eq_false_iff⟩

/-! ### Well-formed images are encodings -/

/-- A byte up to 7 is the number of a register (R21). -/
theorem exists_regByte_eq {b : Byte} (h : b.toNat ≤ 7) : ∃ r, b = regByte r := by
  cases hr : regOfByte b with
  | some r => exact ⟨r, regOfByte_eq_some hr⟩
  | none => exact absurd (regOfByte_eq_none.1 hr) (by omega)

theorem PayloadFits.eq_nil (h : PayloadFits [] bs) : bs = [] := List.length_eq_zero_iff.1 h.1

/-- A payload that fits a register mode begins with the number of a register. -/
theorem PayloadFits.reg (h : PayloadFits (m :: ms) bs) (hm : m.payloadSize = 1) :
    ∃ r rest, bs = regByte r :: rest ∧ PayloadFits ms rest := by
  obtain ⟨hlen, hnamed⟩ := h
  rw [List.map_cons, List.sum_cons, hm] at hlen
  cases bs with
  | nil => simp at hlen; omega
  | cons b rest =>
    obtain ⟨hb, hrest⟩ : b.toNat ≤ 7 ∧ registersNamed ms rest = true := by
      rcases payloadSize_eq_one.1 hm with rfl | rfl <;> simpa [registersNamed] using hnamed
    obtain ⟨r, rfl⟩ := exists_regByte_eq hb
    exact ⟨r, rest, rfl, by simpa [Nat.add_comm 1] using hlen, hrest⟩

/-- A payload that fits a word mode begins with the two bytes of a word. -/
theorem PayloadFits.word (h : PayloadFits (m :: ms) bs) (hm : m.payloadSize = 2) :
    ∃ v rest, bs = hiByte v :: loByte v :: rest ∧ PayloadFits ms rest := by
  obtain ⟨hlen, hnamed⟩ := h
  rw [List.map_cons, List.sum_cons, hm] at hlen
  match bs, hlen with
  | [], hlen | [_], hlen => simp at hlen; omega
  | hi :: lo :: rest, hlen =>
    have hrest : registersNamed ms rest = true := by
      rcases payloadSize_eq_two.1 hm with rfl | rfl <;> simpa [registersNamed] using hnamed
    exact ⟨wordOfBytes hi lo, rest, by simp, by simp at hlen; omega, hrest⟩

/-- A payload that fits the modes of a layout completes an encoding. -/
theorem Layout.exists_encode_eq (hl : Layout b0 ms f) (h : PayloadFits ms bs) : ∃ i, encode i = b0 :: bs := by
  cases hl with
  | F henc =>
    cases h.eq_nil
    exact ⟨_, henc⟩
  | FB hm henc =>
    obtain ⟨p, tail, rfl, htail⟩ := h.reg hm
    cases htail.eq_nil
    exact ⟨_, henc p⟩
  | FW hm henc =>
    obtain ⟨p, tail, rfl, htail⟩ := h.word hm
    cases htail.eq_nil
    exact ⟨_, henc p⟩
  | FBB hm hn henc =>
    obtain ⟨p, rest, rfl, hrest⟩ := h.reg hm
    obtain ⟨q, tail, rfl, htail⟩ := hrest.reg hn
    cases htail.eq_nil
    exact ⟨_, henc p q⟩
  | FBW hm hn henc =>
    obtain ⟨p, rest, rfl, hrest⟩ := h.reg hm
    obtain ⟨q, tail, rfl, htail⟩ := hrest.word hn
    cases htail.eq_nil
    exact ⟨_, henc p q⟩
  | FWB hm hn henc =>
    obtain ⟨p, rest, rfl, hrest⟩ := h.word hm
    obtain ⟨q, tail, rfl, htail⟩ := hrest.reg hn
    cases htail.eq_nil
    exact ⟨_, henc p q⟩
  | FWW hm hn henc =>
    obtain ⟨p, rest, rfl, hrest⟩ := h.word hm
    obtain ⟨q, tail, rfl, htail⟩ := hrest.word hn
    cases htail.eq_nil
    exact ⟨_, henc p q⟩

/-- Settles O4: a well-formed image has a payload that fits the layout of its leading byte; an encoding is well formed
instruction by instruction. -/
theorem encodingsAreTheWellFormedImages : Obligations.EncodingsAreTheWellFormedImages := by
  rintro ⟨b0, bs⟩
  constructor
  · intro h
    obtain ⟨hlead, hfits⟩ := image_wf_iff.1 h
    obtain ⟨f, -, hl⟩ := layout_of_assigned hlead
    exact hl.exists_encode_eq hfits
  · rintro ⟨i, hi⟩
    cases hi
    exact encodingShape i

end Sys2Proof
end

section
/-! SUPPORT. Illegal register payloads (spec/30_encoding.md rules R88, R90): a payload that names no register is
reported at the offset at which the layout of the leading byte has it. -/

namespace Sys2Proof

variable {b0 b : Byte} {m n : Mode} {ms : List Mode} {f : List Byte → Decoded} {rest : List Byte}

theorem takeReg_above (off : Nat) (rest : List Byte) (k : Reg → List Byte → Decoded) (hb : 7 < b.toNat) :
    takeReg off (b :: rest) k = .illegal off b := by simp [takeReg, regOfByte_eq_none.2 hb]

/-- Operand A's payload is read first, at offset 1 (R87, R88). -/
theorem Layout.illegal_one (hl : Layout b0 (m :: ms) f) (hm : m.payloadSize = 1) (hb : 7 < b.toNat) :
    f (b :: rest) = .illegal 1 b := by
  cases hl with
  | FB | FBB | FBW => exact takeReg_above 1 rest _ hb
  | FW hm' | FWB hm' | FWW hm' => cases hm.symm.trans hm'

/-- Operand B's payload stands at offset 2 after a register payload (R87). -/
theorem Layout.illegal_two (hl : Layout b0 [m, n] f) (hm : m.payloadSize = 1) (hn : n.payloadSize = 1) (p : Reg)
    (hb : 7 < b.toNat) : f (regByte p :: b :: rest) = .illegal 2 b := by
  cases hl with
  | FBB => rw [decodeFBB, takeReg_byte, takeReg_above 2 rest _ hb]
  | FBW _ hn' => cases hn.symm.trans hn'
  | FWB hm' | FWW hm' => cases hm.symm.trans hm'

/-- Operand B's payload stands at offset 3 after a word payload (R87). -/
theorem Layout.illegal_three (hl : Layout b0 [m, n] f) (hm : m.payloadSize = 2) (hn : n.payloadSize = 1)
    (hi lo : Byte) (hb : 7 < b.toNat) : f (hi :: lo :: b :: rest) = .illegal 3 b := by
  cases hl with
  | FWB => rw [decodeFWB, takeWord_bytes, takeReg_above 3 rest _ hb]
  | FWW _ hn' => cases hn.symm.trans hn'
  | FBB hm' | FBW hm' => cases hm.symm.trans hm'

/-- Settles O7: the layout of the leading byte reads the payloads up to the one that names no register. -/
theorem registerPayloadAboveSevenIsIllegal : Obligations.RegisterPayloadAboveSevenIsIllegal := by
  intro b0 b hlead hb
  obtain ⟨f, hf, hl⟩ := layout_of_assigned hlead
  refine ⟨fun m ms rest hms hm => ?operandA, fun m n a rest hms hm hn ha => ?afterReg,
    fun m n hi lo rest hms hm hn => ?afterWord⟩
  all_goals rw [hms] at hl; rw [hf]
  case operandA => exact hl.illegal_one (payloadSize_eq_one.2 hm) hb
  case afterReg =>
    obtain ⟨p, rfl⟩ := exists_regByte_eq ha
    exact hl.illegal_two (payloadSize_eq_one.2 hm) (payloadSize_eq_one.2 hn) p hb
  case afterWord => exact hl.illegal_three (payloadSize_eq_two.2 hm) (payloadSize_eq_one.2 hn) hi lo hb

end Sys2Proof
end

section
/-! SUPPORT. The halt at an illegal byte (spec/30_encoding.md rule R89, spec/40_cycle_operands.md rule R117). -/

namespace Sys2Proof.Machine

variable {s : State} {b : Byte}

/-- An illegal byte halts the core in place, and is reported at its own address (R117). -/
theorem step_of_illegal {off : Nat} (hrun : s.run = .running)
    (hd : decode (fetchWindow s s.ip.toNat 5) = .illegal off b) :
    step s = .next (stoppedAt s (.illegalOpcode (s.ip.toNat + off) b) (fetchedLead s)) := by
  simp [step, fetch, decodeStop, hrun, hd, takeStop_eq, stoppedAt]

/-- A window inside memory begins with the byte at its address (R88). -/
theorem fetchWindow_succ_of_lt {a : Nat} (k : Nat) (h : a < s.cfg.memSize) :
    fetchWindow s a (k + 1) = s.byteAt a :: fetchWindow s (a + 1) k := by
  rw [fetchWindow, readByte_of_lt h]

/-- Settles O11: the window begins with the unassigned byte, which is illegal whatever follows it. -/
theorem unassignedByteAtIpHalts : Obligations.UnassignedByteAtIpHalts := by
  intro s hrun hip hlead
  have hd : decode (fetchWindow s s.ip.toNat 5) = .illegal 0 (s.byteAt s.ip.toNat) := by
    rw [fetchWindow_succ_of_lt 4 hip]
    exact (leadAssigned_eq_false_iff _ _).1 hlead
  rw [step_of_illegal hrun hd, fetchedLead_of_lt s hip, Nat.add_zero]

end Sys2Proof.Machine
end

section
/-! SUPPORT. The cycle as a whole (spec/40_cycle_operands.md rules R110, R116 to R120): when a step exists, where an
illegal byte stands, what a stop leaves, and which instruction asks for the normal halt. -/

namespace Sys2Proof.Machine

variable {s t : State} {i : Instr} {r : StopRecord}

/-- Settles O8: `fetch` answers the decoded instruction, and `step` runs it. -/
theorem stepRunsTheDecodedInstruction : Obligations.StepRunsTheDecodedInstruction := fun _ _ => step_of_instr

/-! ### When a step exists -/

theorem step_of_halted (h : s.run = .halted) : step s = .fault .halted := by simp [step, h]

/-- A cycle after decode always has a next state: a raise is a stop, not the lack of a step (R293). -/
theorem runCycle_exists_next (i : Instr) (e : State → Except StopReason State) (s : State) :
    ∃ t, runCycle i e s = .next t := by
  cases h : e (s.advance (instrLength i)) with
  | ok u => exact ⟨_, runCycle_of_ok h⟩
  | error reason => exact ⟨_, runCycle_of_error h⟩

theorem exec_exists_next (i : Instr) (s : State) : ∃ t, exec i s = .next t := by
  by_cases hi : i = .hlt
  · exact ⟨_, hi ▸ exec_hlt s⟩
  · obtain ⟨e, -, he⟩ := exec_eq_runCycle i hi
    rw [he]
    exact runCycle_exists_next i e s

/-- Settles O10: each of the decoder's three verdicts leads to a next state. -/
theorem stepExistsExactlyWhileRunning : Obligations.StepExistsExactlyWhileRunning := by
  refine fun s => ⟨fun hrun => ?_, step_of_halted⟩
  cases hd : decode (fetchWindow s s.ip.toNat 5) with
  | instr i =>
    rw [step_of_instr hrun hd]
    exact exec_exists_next i s
  | illegal off b => exact ⟨_, step_of_illegal hrun hd⟩
  | cut off w => exact ⟨_, step_of_cut hrun hd⟩

/-! ### Where an illegal byte stands -/

/-- Whatever byte the window shows stands in memory, at the offset at which it shows it (R88). -/
theorem fetchWindow_eq_some {a n k : Nat} {b : Byte} (h : (fetchWindow s a n)[k]? = some b) :
    a + k < s.cfg.memSize ∧ b = s.byteAt (a + k) := by
  obtain ⟨hk, -⟩ := List.getElem?_eq_some_iff.1 h
  rw [fetchWindow_length] at hk
  have hm : a + k < s.cfg.memSize := by omega
  exact ⟨hm, Option.some.inj (h.symm.trans (fetchWindow_get s (by omega) hm))⟩

/-- Settles O12: the decoder reports a byte of the window, and the window shows memory. -/
theorem illegalByteIsReportedWhereItStands : Obligations.IllegalByteIsReportedWhereItStands := by
  intro s off b hrun hd
  obtain ⟨hin, hb⟩ := fetchWindow_eq_some (decode_eq_illegal hd)
  refine ⟨hin, hb, ?_⟩
  rw [step_of_illegal hrun hd, fetchedLead_of_lt s (by omega)]

/-! ### What a stop leaves -/

theorem fetchedLead_of_instr (hd : decode (fetchWindow s s.ip.toNat 5) = .instr i) :
    fetchedLead s = some (leadByte i) := by
  obtain ⟨hin, hlead⟩ := leadByte_of_fetch s hd
  rw [fetchedLead_of_lt s hin, hlead]

/-- A cycle after decode that ends with a record has stopped in place, or is HLT's. -/
theorem exec_of_stop (hstop : s.stop = none) (h : exec i s = .next t) (ht : t.stop = some r) :
    (r.reason ≠ .hltInstruction ∧ t = stoppedAt s r.reason (some (leadByte i))) ∨
      (i = .hlt ∧ r.reason = .hltInstruction) := by
  rcases exec_cases h with ⟨reason, rfl, hfault, -⟩ | ⟨hi, rfl⟩ | ⟨-, u, rfl, -, hus, -⟩
  · cases ht
    refine .inl ⟨?_, rfl⟩
    rintro rfl
    cases hfault
  · cases ht
    exact .inr ⟨hi, rfl⟩
  · rw [commit_stop, hus, hstop] at ht
    cases ht

/-- Settles O17: the other way to end with a record is a fault. -/
theorem onlyHltHaltsNormally : Obligations.OnlyHltHaltsNormally := by
  intro i s t r hstop h ht hhlt
  rcases exec_of_stop hstop h ht with ⟨hne, -⟩ | ⟨hi, -⟩
  · exact absurd hhlt hne
  · exact hi

/-- A step that ends with a record other than HLT's leaves the state it began in, Halted, with the leading byte the
decoder saw (R116, R117). -/
theorem step_of_stop (hstop : s.stop = none) (h : step s = .next t) (ht : t.stop = some r)
    (hhlt : r.reason ≠ .hltInstruction) : t = stoppedAt s r.reason (fetchedLead s) := by
  obtain ⟨-, ⟨i, hd, he⟩ | ⟨off, b, -, rfl⟩ | ⟨off, w, -, rfl⟩⟩ := step_cases h
  · rcases exec_of_stop hstop he ht with ⟨-, rfl⟩ | ⟨-, heq⟩
    · rw [fetchedLead_of_instr hd]
    · exact absurd heq hhlt
  · cases ht
    rfl
  · cases ht
    rfl

/-- Settles O15: the record of such a step is the one `stoppedAt` writes. -/
theorem stoppingCycleCommitsNothing : Obligations.StoppingCycleCommitsNothing := by
  intro s t r hstop h ht hhlt
  obtain rfl := step_of_stop hstop h ht hhlt
  have hr : r = ⟨r.reason, s.ip, fetchedLead s, s.cycles⟩ := (Option.some.inj ht).symm
  rw [hr]
  exact ⟨rfl, rfl, rfl, fetchedLead_of_lt s, fetchedLead_of_ge s⟩

end Sys2Proof.Machine
end

section
/-! SUPPORT. MOV (spec/41_mov.md rules R140 to R152): the two stops of its effect, and what each of its forms leaves,
by the kind of its destination. -/

namespace Sys2Proof.Machine

variable {s : State} {a : Source} {d : Dest} {x : Nat}

/-! ### The stops of the effect, in their order (R258) -/

/-- The source is read before the destination is looked at, so its raise is MOV's whatever the destination is. -/
theorem movEffect_of_src_out (hsrc : sourceAddr a s = some x) (hx : ¬ x + 1 < s.cfg.memSize) :
    movEffect a d s = .error (.outOfBounds x .read .word) :=
  bind_eq_error.2 (.inl (src_of_out hsrc hx))

theorem movEffect_of_dst_out (hsrc : sourceFits a s = true) (hdst : destAddr d s = some x)
    (hx : ¬ x + 1 < s.cfg.memSize) : movEffect a d s = .error (.outOfBounds x .write .word) :=
  bind_eq_error.2 (.inr ⟨_, src_of_fits hsrc, dst_of_out hdst hx⟩)

/-- Settles O33: the effect raises in the state after the advance, and the cycle stops in the state before it. -/
theorem movStops : Obligations.MovStops := by
  intro s a d x i u hx
  have hout : ¬ x + 1 < u.cfg.memSize := Nat.not_lt.2 hx
  refine ⟨fun hsrc => ?source, fun hsrc hdst => ?destination⟩
  case source => exact (exec_movOf a d s).trans (runCycle_of_error (movEffect_of_src_out hsrc hout))
  case destination => exact (exec_movOf a d s).trans (runCycle_of_error (movEffect_of_dst_out hsrc hdst hout))

/-! ### The forms that complete -/

/-- A MOV to a register whose source fits commits the write of the source's value to that register, and nothing else
after the advance (R140); `exec_movOf_of_fits` says the same of a MOV to memory. -/
theorem exec_movOf_reg_of_fits {r : Reg}
    (hsrc : sourceFits a (s.advance (instrLength (movOf a (.reg r)))) = true) :
    exec (movOf a (.reg r)) s = .next (((s.advance (instrLength (movOf a (.reg r)))).set r
      (sourceValue a (s.advance (instrLength (movOf a (.reg r)))))).commit) := by
  rw [exec_movOf]
  exact runCycle_of_ok (movEffect_eq_ok.2 ⟨hsrc, dst_reg r⟩)

/-- Settles O31: what is committed is the state after the advance with one register written; IP as the destination
holds the value, its advance overwritten. -/
theorem movToRegister : Obligations.MovToRegister := by
  intro s a r u hsrc
  refine ⟨_, exec_movOf_reg_of_fits hsrc, ?named, fun q hq => ?others, ?memory, ?rest⟩
  case named => rw [get_commit, get_set_same]
  case others => rw [get_commit, get_set_other _ _ hq]
  case memory => rw [commit_mem, set_mem, advance_mem]
  case rest => simp [CommittedFrom]

/-- Settles O32: what is committed is the state after the advance with one word written to memory. -/
theorem movToMemory : Obligations.MovToMemory := by
  intro s a d x u hw hsrc hdst hx
  refine ⟨_, exec_movOf_of_fits hsrc hdst hx, ?high, ?low, fun y h0 h1 => ?others, fun q => ?registers,
    rfl, rfl, rfl, rfl⟩
  case high => exact byteAt_setWord_hi (s := u) _ hw
  case low => exact byteAt_setWord_lo (s := u) _ hw
  case others => exact byteAt_setWord_other (s := u) _ hw h0 h1
  case registers => rw [get_commit, get_withMem]

end Sys2Proof.Machine
end

section
/-! SUPPORT. ADD (spec/42_add.md rules R160, R161): what the adder computes, the raises of an operation that reads two
source operands, and what the sixteen forms leave when both operands fit and when one does not. -/

namespace Sys2Proof.Machine

variable {s : State} {a b : Source} {x : Nat}

/-- The adder on naturals: the integer sum without its carry (R161). -/
theorem addWords_toNat (v w : Word) : (addWords v w).toNat = (v.toNat + w.toNat) % 65536 := BitVec.toNat_add v w

/-! ### Two source operands, A before B (R112, R258) -/

/-- Operand A is read first, so its raise comes whatever operand B is and whatever the operands are for. -/
theorem two_src_of_first_out (f : Word → Word → Except StopReason State) (ha : sourceAddr a s = some x)
    (hx : ¬ x + 1 < s.cfg.memSize) :
    (src a s >>= fun v => src b s >>= f v) = .error (.outOfBounds x .read .word) :=
  bind_eq_error.2 (.inl (src_of_out ha hx))

theorem two_src_of_second_out (f : Word → Word → Except StopReason State) (ha : sourceFits a s = true)
    (hb : sourceAddr b s = some x) (hx : ¬ x + 1 < s.cfg.memSize) :
    (src a s >>= fun v => src b s >>= f v) = .error (.outOfBounds x .read .word) :=
  bind_eq_error.2 (.inr ⟨_, src_of_fits ha, bind_eq_error.2 (.inl (src_of_out hb hx))⟩)

/-! ### The forms that complete -/

/-- An ADD whose operands fit commits the write of their sum to ACC, and nothing else after the advance (R160). -/
theorem exec_addOf_of_fits (ha : sourceFits a (s.advance (instrLength (addOf a b))) = true)
    (hb : sourceFits b (s.advance (instrLength (addOf a b))) = true) :
    exec (addOf a b) s = .next (((s.advance (instrLength (addOf a b))).set .acc
      (addWords (sourceValue a (s.advance (instrLength (addOf a b))))
        (sourceValue b (s.advance (instrLength (addOf a b)))))).commit) := by
  rw [exec_addOf]
  exact runCycle_of_ok (addEffect_eq_ok.2 ⟨ha, hb, rfl⟩)

/-- Settles O34: what is committed is the state after the advance with the adder's word in ACC. -/
theorem addWritesTheSumToAcc : Obligations.AddWritesTheSumToAcc := by
  intro s a b u ha hb
  refine ⟨_, exec_addOf_of_fits ha hb, ?sum, fun q hq => ?others, ?memory, ?rest⟩
  case sum => exact addWords_toNat (sourceValue a u) (sourceValue b u)
  case others => rw [get_commit, get_set_other _ _ hq]
  case memory => rw [commit_mem, set_mem, advance_mem]
  case rest => simp [CommittedFrom]

/-! ### The forms that stop -/

/-- Settles O35: the effect raises in the state after the advance, and the cycle stops in the state before it. -/
theorem addStops : Obligations.AddStops := by
  intro s a b x i u hx
  have hout : ¬ x + 1 < u.cfg.memSize := Nat.not_lt.2 hx
  refine ⟨fun ha => ?operandA, fun ha hb => ?operandB⟩
  case operandA => exact (exec_addOf a b s).trans (runCycle_of_error (two_src_of_first_out _ ha hout))
  case operandB => exact (exec_addOf a b s).trans (runCycle_of_error (two_src_of_second_out _ ha hb hout))

end Sys2Proof.Machine
end

section
/-! SUPPORT. JNE (spec/43_jne.md rules R180, R181): the one word the sixteen forms write to IP when both operands fit,
and that they stop on an operand that does not, taken or not. -/

namespace Sys2Proof.Machine

variable {s : State} {a b : Source}

theorem differs_iff_ne (v w : Word) : differs v w = true ↔ v ≠ w := bne_iff_ne

/-- The register wraps where the address does not (R25). -/
theorem advance_ip_toNat (s : State) (len : Nat) : (s.advance len).ip.toNat = (s.ip.toNat + len) % 65536 := by
  rw [advance_ip, BitVec.toNat_add, BitVec.toNat_ofNat, Nat.add_mod_mod]

/-! ### The forms that complete -/

/-- The word IP holds after a JNE with these operands, `u` being the state after the advance (R180). -/
def jneTarget (a b : Source) (u : State) : Word := if u.acc ≠ sourceValue b u then sourceValue a u else u.ip

theorem jneTarget_of_ne {u : State} (h : u.acc ≠ sourceValue b u) : jneTarget a b u = sourceValue a u := if_pos h

theorem jneTarget_of_eq {u : State} (h : u.acc = sourceValue b u) : jneTarget a b u = u.ip := if_neg (not_not.2 h)

/-- Taken or not, the effect is one write to IP: falling through writes the word IP already holds. -/
theorem jneEffect_of_fits {u : State} (ha : sourceFits a u = true) (hb : sourceFits b u = true) :
    jneEffect a b u = .ok (u.set .ip (jneTarget a b u)) := by
  refine jneEffect_eq_ok.2 ⟨ha, hb, ?_⟩
  by_cases h : u.acc = sourceValue b u
  · rw [jneTarget_of_eq h, if_neg fun hd => (differs_iff_ne _ _).1 hd h]
    rfl
  · rw [jneTarget_of_ne h, if_pos ((differs_iff_ne _ _).2 h)]

theorem exec_jneOf_of_fits (ha : sourceFits a (s.advance (instrLength (jneOf a b))) = true)
    (hb : sourceFits b (s.advance (instrLength (jneOf a b))) = true) :
    exec (jneOf a b) s = .next (((s.advance (instrLength (jneOf a b))).set .ip
      (jneTarget a b (s.advance (instrLength (jneOf a b))))).commit) := by
  rw [exec_jneOf]
  exact runCycle_of_ok (jneEffect_of_fits ha hb)

/-- Settles O36: what is committed is the state after the advance with the target, or the address after the
instruction, in IP. -/
theorem jneBranchesOrFallsThrough : Obligations.JneBranchesOrFallsThrough := by
  intro s a b u ha hb
  refine ⟨_, exec_jneOf_of_fits ha hb, fun hne => ?taken, fun heq => ?fallThrough, fun q hq => ?others, ?memory, ?rest⟩
  case taken => exact jneTarget_of_ne (u := u) hne
  case fallThrough =>
    rw [commit_ip, set_ip_ip, jneTarget_of_eq (u := u) heq]
    exact advance_ip_toNat s _
  case others => rw [get_commit, get_set_other _ _ hq, get_advance, if_neg hq]
  case memory => rw [commit_mem, set_mem, advance_mem]
  case rest => simp [CommittedFrom]

/-! ### The forms that stop -/

/-- Settles O37: both operands are resolved before ACC is looked at, so that its value decides nothing here. -/
theorem jneStopsWhetherOrNotTaken : Obligations.JneStopsWhetherOrNotTaken := by
  intro s a b x i u hx
  have hout : ¬ x + 1 < u.cfg.memSize := Nat.not_lt.2 hx
  refine ⟨fun ha => ?target, fun ha hb => ?comparison⟩
  case target => exact (exec_jneOf a b s).trans (runCycle_of_error (two_src_of_first_out _ ha hout))
  case comparison => exact (exec_jneOf a b s).trans (runCycle_of_error (two_src_of_second_out _ ha hb hout))

end Sys2Proof.Machine
end

section
/-! SUPPORT. PSH and POP (spec/44_psh_pop.md rules R200 to R209): the stops of a push and of a pop, what each of their
forms leaves when it completes, that a pop gives back what a push left, and how low a push or a call can take SP. -/

namespace Sys2Proof.Machine

variable {s t : State} {a : Source} {d : Dest} {v : Word} {x : Nat}

/-! ### The stops of a push, in their order (R258) -/

/-- The operand is resolved before SP is looked at. -/
theorem pshEffect_of_src_out (hsrc : sourceAddr a s = some x) (hx : ¬ x + 1 < s.cfg.memSize) :
    pshEffect a s = .error (.outOfBounds x .read .word) :=
  bind_eq_error.2 (.inl (src_of_out hsrc hx))

theorem pshEffect_of_push_error {reason : StopReason} (hsrc : sourceFits a s = true)
    (hpush : push (sourceValue a s) s = .error reason) : pshEffect a s = .error reason :=
  bind_eq_error.2 (.inr ⟨_, src_of_fits hsrc, hpush⟩)

theorem push_of_overflow (h : s.sp.toNat < s.cfg.stackBottom + 2) : push v s = .error (.stackOverflow s.sp) :=
  if_pos h

/-- The overflow test comes first, so the write is out of bounds only when SP is above the end of memory (R200). -/
theorem push_of_out (hbottom : s.cfg.stackBottom + 2 ≤ s.sp.toNat) (hsp : s.cfg.memSize < s.sp.toNat) :
    push v s = .error (.outOfBounds (s.sp.toNat - 2) .write .word) := by
  rw [push, if_neg (Nat.not_lt.2 hbottom)]
  exact bind_eq_error.2 (.inl (writeWord_of_ge v (by omega)))

/-- Settles O39: the effect raises in the state after the advance, and the cycle stops in the state before it. -/
theorem pshStops : Obligations.PshStops := by
  intro s a i u
  refine ⟨fun x hsrc hx => ?operand, fun hsrc hlow => ?overflow, fun hsrc hbottom hsp => ?write⟩
  case operand => exact (exec_pshOf a s).trans (runCycle_of_error (pshEffect_of_src_out hsrc (Nat.not_lt.2 hx)))
  case overflow =>
    have hbottom : u.sp.toNat < u.cfg.stackBottom + 2 := by simp only [u, advance_sp, advance_cfg]; omega
    exact (exec_pshOf a s).trans (runCycle_of_error (pshEffect_of_push_error hsrc (push_of_overflow hbottom)))
  case write =>
    exact (exec_pshOf a s).trans (runCycle_of_error (pshEffect_of_push_error hsrc (push_of_out hbottom hsp)))

/-! ### A push that completes -/

/-- A PSH whose operand fits, with room for a word below SP, commits the store of the operand's value there and the
move of SP, and nothing else after the advance (R200). -/
theorem exec_pshOf_of_fits (hsrc : sourceFits a (s.advance (instrLength (pshOf a))) = true)
    (hbottom : s.cfg.stackBottom + 2 ≤ s.sp.toNat) (hsp : s.sp.toNat ≤ s.cfg.memSize) :
    exec (pshOf a) s = .next (({ s.advance (instrLength (pshOf a)) with
      mem := Memory.setWord s.mem (s.sp.toNat - 2) (sourceValue a (s.advance (instrLength (pshOf a)))) }.set .sp
        (s.sp - 2)).commit) := by
  rw [exec_pshOf]
  exact runCycle_of_ok (pshEffect_eq_ok.2 ⟨hsrc, push_eq_ok.2 ⟨hbottom, hsp, rfl⟩⟩)

/-- SP does not wrap in a push (R200). -/
theorem sub_two_toNat (h : 2 ≤ v.toNat) : (v - 2).toNat = v.toNat - 2 := BitVec.toNat_sub_of_le (y := 2) h

/-- Settles O38: what is committed is the state after the advance with one word stored and SP at that word. -/
theorem pshStoresBelowSp : Obligations.PshStoresBelowSp := by
  intro s a u hw hsrc hbottom hsp
  have hlow : s.sp.toNat - 1 = s.sp.toNat - 2 + 1 := by omega
  rw [hlow]
  refine ⟨_, exec_pshOf_of_fits hsrc hbottom hsp, ?pointer, ?high, ?low, fun y h0 h1 => ?others,
    fun q hq => ?registers, ?rest⟩
  case pointer => exact sub_two_toNat (by omega)
  case high => exact byteAt_setWord_hi (s := u) _ hw
  case low => exact byteAt_setWord_lo (s := u) _ hw
  case others => exact byteAt_setWord_other (s := u) _ hw h0 h1
  case registers => rw [get_commit, get_set_other _ _ hq, get_withMem]
  case rest => simp [CommittedFrom]

/-! ### The stops of a pop, in their order (R258) -/

theorem popEffect_of_underflow (h : s.cfg.stackTop < s.sp.toNat + 2) :
    popEffect d s = .error (.stackUnderflow s.sp) := if_pos h

theorem stackTop_le_memSize {c : Config} (hc : c.Valid) : c.stackTop ≤ c.memSize := by
  obtain ⟨-, ⟨hmem, -⟩, -⟩ := hc
  exact hmem

/-- The underflow test is the only one the read at SP needs (R201). -/
theorem sp_word_in_memory (hcfg : s.cfg.Valid) (htop : s.sp.toNat + 2 ≤ s.cfg.stackTop) :
    s.sp.toNat + 1 < s.cfg.memSize :=
  htop.trans (stackTop_le_memSize hcfg)

theorem popEffect_of_dst_out (hcfg : s.cfg.Valid) (htop : s.sp.toNat + 2 ≤ s.cfg.stackTop)
    (hdst : destAddr d s = some x) (hx : ¬ x + 1 < s.cfg.memSize) :
    popEffect d s = .error (.outOfBounds x .write .word) := by
  rw [popEffect, if_neg (Nat.not_lt.2 htop)]
  have hread : readWord s.sp.toNat s = .ok (s.wordAt s.sp.toNat) := readWord_of_lt (sp_word_in_memory hcfg htop)
  exact bind_eq_error.2 (.inr ⟨_, hread, bind_eq_error.2 (.inl (dst_of_out hdst hx))⟩)

/-- Settles O42: the effect raises in the state after the advance, and the cycle stops in the state before it. -/
theorem popStops : Obligations.PopStops := by
  intro s d i u hcfg
  refine ⟨fun htop => ?underflow, fun x htop hdst hx => ?destination⟩
  case underflow => exact (exec_popOf d s).trans (runCycle_of_error (popEffect_of_underflow htop))
  case destination =>
    exact (exec_popOf d s).trans (runCycle_of_error (popEffect_of_dst_out hcfg htop hdst (Nat.not_lt.2 hx)))

/-! ### A pop that completes -/

/-- A POP with a whole word below `STACK_TOP` and a destination that takes it commits what the write to the destination
made, with 2 added to SP as it is after that write (R201, decision D23). -/
theorem exec_popOf_of_dst (hcfg : s.cfg.Valid) (htop : s.sp.toNat + 2 ≤ s.cfg.stackTop)
    (hdst : dst d (s.wordAt s.sp.toNat) (s.advance (instrLength (popOf d))) = .ok t) :
    exec (popOf d) s = .next (t.set .sp (t.sp + 2)).commit := by
  rw [exec_popOf]
  exact runCycle_of_ok (popEffect_eq_ok.2 ⟨htop, sp_word_in_memory hcfg htop, t, hdst, rfl⟩)

/-- SP does not wrap in a pop whose destination leaves it alone: `STACK_TOP` is at most 0xFFFF (R4). -/
theorem sp_add_two_toNat (hcfg : s.cfg.Valid) (htop : s.sp.toNat + 2 ≤ s.cfg.stackTop) :
    (s.sp + 2).toNat = s.sp.toNat + 2 := by
  obtain ⟨-, ⟨-, hword⟩, -⟩ := hcfg
  exact BitVec.toNat_add_of_lt (y := 2) (show s.sp.toNat + 2 < 65536 by omega)

/-- Settles O40: what is committed is the state after the advance with the register and then SP written; into SP itself,
the second write adds to the first. -/
theorem popToRegister : Obligations.PopToRegister := by
  intro s r hcfg htop
  refine ⟨_, exec_popOf_of_dst (d := .reg r) hcfg htop (dst_reg r), fun hr => ⟨?named, ?pointer⟩, fun hr => ?intoSp,
    fun q hq hsp => ?others, ?memory, ?rest⟩
  case named => rw [get_commit, get_set_other _ _ hr, get_set_same]
  case pointer =>
    rw [commit_sp, set_sp_sp, sp_eq_get, get_set_other _ _ (Ne.symm hr)]
    exact sp_add_two_toNat hcfg htop
  case intoSp =>
    subst hr
    exact BitVec.toNat_add (s.wordAt s.sp.toNat) 2
  case others =>
    rw [get_commit, get_set_other _ _ hsp, get_set_other _ _ hq]
    rfl
  case memory => simp only [commit_mem, set_mem, advance_mem]
  case rest => simp [CommittedFrom]

theorem hiByte_wordAt (s : State) (x : Nat) : hiByte (s.wordAt x) = s.byteAt x := hiByte_wordOfBytes _ _

theorem loByte_wordAt (s : State) (x : Nat) : loByte (s.wordAt x) = s.byteAt (x + 1) := loByte_wordOfBytes _ _

/-- Settles O41: what is committed is the state after the advance with the word of the stack stored and SP moved. -/
theorem popToMemory : Obligations.PopToMemory := by
  intro s d x u hcfg hw htop hdst hx
  refine ⟨_, exec_popOf_of_dst hcfg htop (dst_of_fits hdst hx), ?pointer, ?high, ?low, fun y h0 h1 => ?others,
    fun q hq => ?registers, ?rest⟩
  case pointer => exact sp_add_two_toNat hcfg htop
  case high => exact (byteAt_setWord_hi (s := u) _ hw).trans (hiByte_wordAt s _)
  case low => exact (byteAt_setWord_lo (s := u) _ hw).trans (loByte_wordAt s _)
  case others => exact byteAt_setWord_other (s := u) _ hw h0 h1
  case registers => rw [get_commit, get_set_other _ _ hq, get_withMem]
  case rest => simp [CommittedFrom]

/-! ### A pop after a push -/

/-- Two bytes that are the halves of a word make that word (R52). -/
theorem wordAt_of_bytes (hhi : s.byteAt x = hiByte v) (hlo : s.byteAt (x + 1) = loByte v) : s.wordAt x = v := by
  rw [State.wordAt, hhi, hlo, wordOfBytes_hi_lo]

/-- Settles O43: what `pshStoresBelowSp` says the PSH leaves is what `popToRegister` asks for and reads. -/
theorem popGivesBackWhatPshPushed : Obligations.PopGivesBackWhatPshPushed := by
  intro s v a r u hcfg hw hsrc hbottom htop hr
  have hmem : s.sp.toNat ≤ s.cfg.memSize := htop.trans (stackTop_le_memSize hcfg)
  obtain ⟨t, ht, hsp, hhi, hlo, -, -, -, -, -, htcfg⟩ := pshStoresBelowSp s a hw hsrc hbottom hmem
  refine ⟨t, ht, fun hvcfg hvsp hvhi hvlo => ?_⟩
  have hcfgs : v.cfg = s.cfg := hvcfg.trans htcfg
  have hback : v.sp.toNat + 2 = s.sp.toNat := by rw [hvsp, hsp]; omega
  have hword : v.wordAt v.sp.toNat = sourceValue a u := by
    refine wordAt_of_bytes ?_ ?_
    · rw [hvsp, hvhi, hsp, hhi]
    · rw [hvsp, hvlo, hsp, show s.sp.toNat - 2 + 1 = s.sp.toNat - 1 by omega, hlo]
  obtain ⟨w, hexec, hother, -⟩ := popToRegister v r (hcfgs ▸ hcfg) (by rw [hcfgs, hback]; exact htop)
  obtain ⟨hget, hwsp⟩ := hother hr
  exact ⟨w, hexec, hget.trans hword, BitVec.eq_of_toNat_eq (hwsp.trans hback)⟩

/-! ### How low SP can go -/

theorem push_sp_above_bottom (h : push v s = .ok t) : t.cfg.stackBottom ≤ t.sp.toNat := by
  obtain ⟨hbottom, -, rfl⟩ := push_eq_ok.1 h
  rw [set_sp_sp, set_cfg, sub_two_toNat (by omega)]
  exact Nat.le_sub_of_add_le hbottom

/-- The overflow test of a call is made once, for the whole frame (R222). -/
theorem callTo_sp_above_bottom (h : callTo v s = .ok t) : t.cfg.stackBottom ≤ t.sp.toNat := by
  obtain ⟨hbottom, -, rfl⟩ := callTo_eq_ok.1 h
  have hsub : (s.sp - 12).toNat = s.sp.toNat - 12 :=
    BitVec.toNat_sub_of_le (y := 12) (show 12 ≤ s.sp.toNat by omega)
  simp only [set_ip_sp, set_fp_sp, set_sp_sp, set_cfg, hsub]
  exact Nat.le_sub_of_add_le hbottom

/-- A cycle after decode that ends without a record has committed what its effect made (R110, R116). -/
theorem runCycle_of_no_stop {i : Instr} {e : State → Except StopReason State} (h : runCycle i e s = .next t)
    (ht : t.stop = none) : ∃ u, e (s.advance (instrLength i)) = .ok u ∧ t = u.commit := by
  rcases runCycle_cases h with hok | ⟨reason, -, rfl⟩
  · exact hok
  · cases ht

/-- Settles O50: without a record the cycle has committed a push or a call, and each has tested the new SP. -/
theorem pushesStayAboveStackBottom : Obligations.PushesStayAboveStackBottom := by
  intro i s t a hi _ h ht
  rcases hi with rfl | rfl
  · rw [exec_pshOf] at h
    obtain ⟨u, hu, rfl⟩ := runCycle_of_no_stop h ht
    rw [commit_cfg, commit_sp]
    exact push_sp_above_bottom (pshEffect_eq_ok.1 hu).2
  · rw [exec_calOf] at h
    obtain ⟨u, hu, rfl⟩ := runCycle_of_no_stop h ht
    rw [commit_cfg, commit_sp]
    exact callTo_sp_above_bottom (calEffect_eq_ok.1 hu).2

end Sys2Proof.Machine
end

section
/-! SUPPORT. CAL and RET (spec/45_cal_ret.md rules R220 to R230): the stops of a call and of a return, what each leaves
when it completes, and that a return undoes a call. -/

namespace Sys2Proof.Machine

variable {s t : State} {a : Source} {v : Word} {x : Nat}

/-! ### The stops of a call, in their order (R258) -/

/-- The target is resolved before SP is looked at. -/
theorem calEffect_of_src_out (hsrc : sourceAddr a s = some x) (hx : ¬ x + 1 < s.cfg.memSize) :
    calEffect a s = .error (.outOfBounds x .read .word) :=
  bind_eq_error.2 (.inl (src_of_out hsrc hx))

theorem calEffect_of_callTo_error {reason : StopReason} (hsrc : sourceFits a s = true)
    (hcall : callTo (sourceValue a s) s = .error reason) : calEffect a s = .error reason :=
  bind_eq_error.2 (.inr ⟨_, src_of_fits hsrc, hcall⟩)

theorem callTo_of_overflow (h : s.sp.toNat < s.cfg.stackBottom + 12) : callTo v s = .error (.stackOverflow s.sp) :=
  if_pos h

/-- The first write is the one at the highest address, so a frame that does not fit raises there (R222). -/
theorem callTo_of_out (hbottom : s.cfg.stackBottom + 12 ≤ s.sp.toNat) (hsp : s.cfg.memSize < s.sp.toNat) :
    callTo v s = .error (.outOfBounds (s.sp.toNat - 2) .write .word) := by
  rw [callTo, if_neg (Nat.not_lt.2 hbottom)]
  exact bind_eq_error.2 (.inl (writeWord_of_ge s.r1 (by omega)))

/-- Settles O45: the effect raises in the state after the advance, and the cycle stops in the state before it. -/
theorem calStops : Obligations.CalStops := by
  intro s a i u
  refine ⟨fun x hsrc hx => ?target, fun hsrc hlow => ?overflow, fun hsrc hbottom hsp => ?write⟩
  case target => exact (exec_calOf a s).trans (runCycle_of_error (calEffect_of_src_out hsrc (Nat.not_lt.2 hx)))
  case overflow =>
    have hbottom : u.sp.toNat < u.cfg.stackBottom + 12 := by simp only [u, advance_sp, advance_cfg]; omega
    exact (exec_calOf a s).trans (runCycle_of_error (calEffect_of_callTo_error hsrc (callTo_of_overflow hbottom)))
  case write =>
    exact (exec_calOf a s).trans (runCycle_of_error (calEffect_of_callTo_error hsrc (callTo_of_out hbottom hsp)))

/-! ### A call that completes -/

/-- What a call leaves: the frame in memory, SP and FP at its base, IP at the target (R222). -/
def called (v : Word) (s : State) : State :=
  (({ s with mem := frameMem s }.set .sp (s.sp - 12)).set .fp (s.sp - 12)).set .ip v

/-- A CAL whose target fits, with room for the frame below SP, commits the call in the state after the advance. -/
theorem exec_calOf_of_fits (hsrc : sourceFits a (s.advance (instrLength (calOf a))) = true)
    (hbottom : s.cfg.stackBottom + 12 ≤ s.sp.toNat) (hsp : s.sp.toNat ≤ s.cfg.memSize) :
    exec (calOf a) s = .next (called (sourceValue a (s.advance (instrLength (calOf a))))
      (s.advance (instrLength (calOf a)))).commit := by
  rw [exec_calOf]
  exact runCycle_of_ok (calEffect_eq_ok.2 ⟨hsrc, callTo_eq_ok.2 ⟨hbottom, hsp, rfl⟩⟩)

theorem called_committed (v : Word) (s : State) : CommittedFrom s (called v s).commit := by
  simp [CommittedFrom, called]

theorem called_byteAt (v : Word) (s : State) (x : Nat) : (called v s).commit.byteAt x = Memory.get (frameMem s) x := by
  simp only [byteAt_commit, called, byteAt_set]
  rfl

/-- The six words stand in the state a call leaves where R220 says. -/
theorem called_words (v : Word) (hw : Memory.wf s.mem) (h : 12 ≤ s.sp.toNat) :
    (called v s).commit.wordAt (s.sp.toNat - 2) = s.r1 ∧ (called v s).commit.wordAt (s.sp.toNat - 4) = s.r2 ∧
    (called v s).commit.wordAt (s.sp.toNat - 6) = s.r3 ∧ (called v s).commit.wordAt (s.sp.toNat - 8) = s.r4 ∧
    (called v s).commit.wordAt (s.sp.toNat - 10) = s.ip ∧
    (called v s).commit.wordAt (s.sp.toNat - 12) = argCount s := by
  simp only [State.wordAt, called_byteAt]
  exact frameMem_words hw h

/-- SP does not wrap in a call (R222). -/
theorem sub_twelve_toNat (h : 12 ≤ v.toNat) : (v - 12).toNat = v.toNat - 12 := BitVec.toNat_sub_of_le (y := 12) h

/-- Settles O44: the frame is written in the state after the advance, where IP is the return address. -/
theorem calPushesTheFrame : Obligations.CalPushesTheFrame := by
  intro s a u S hw hsrc hbottom hsp
  have hroom : 12 ≤ u.sp.toNat := (Nat.le_add_left 12 _).trans hbottom
  obtain ⟨hr1, hr2, hr3, hr4, hip, hcount⟩ := called_words (s := u) (sourceValue a u) hw hroom
  refine ⟨_, exec_calOf_of_fits hsrc hbottom hsp, hr1, hr2, hr3, hr4, ?returnAddress, ?count, ?others,
    sub_twelve_toNat hroom, sub_twelve_toNat hroom, rfl, rfl, rfl, rfl, rfl, rfl, called_committed _ u⟩
  case returnAddress => exact (congrArg BitVec.toNat hip).trans (advance_ip_toNat s _)
  case count => exact (congrArg BitVec.toNat hcount).trans (argCount_toNat u)
  case others => exact fun y hy => (called_byteAt _ u y).trans (frameMem_other (s := u) hw hroom hy)

/-! ### The stops of a return, in their order (R258) -/

theorem retEffect_of_underflow (h : s.cfg.stackTop < s.fp.toNat + 12) :
    retEffect s = .error (.stackUnderflow s.fp) := if_pos h

/-- The first test is the only one the six reads of the frame need (R228). -/
theorem frame_word_in_memory (hcfg : s.cfg.Valid) (htop : s.fp.toNat + 12 ≤ s.cfg.stackTop) {k : Nat} (hk : k ≤ 10) :
    s.fp.toNat + k + 1 < s.cfg.memSize := by
  have hmem := stackTop_le_memSize hcfg
  omega

theorem readWord_frame (hcfg : s.cfg.Valid) (htop : s.fp.toNat + 12 ≤ s.cfg.stackTop) {k : Nat} (hk : k ≤ 10) :
    readWord (s.fp.toNat + k) s = .ok (s.wordAt (s.fp.toNat + k)) :=
  readWord_of_lt (frame_word_in_memory hcfg htop hk)

/-- The second test comes after the frame has been read, and reports FP as the first does. -/
theorem retEffect_of_count_underflow (hcfg : s.cfg.Valid) (htop : s.fp.toNat + 12 ≤ s.cfg.stackTop)
    (hcount : s.cfg.stackTop < returnSp s) : retEffect s = .error (.stackUnderflow s.fp) := by
  have hn : readWord s.fp.toNat s = .ok (s.wordAt s.fp.toNat) := readWord_frame hcfg htop (k := 0) (by decide)
  rw [retEffect, if_neg (Nat.not_lt.2 htop), hn, readWord_frame hcfg htop (k := 2) (by decide),
    readWord_frame hcfg htop (k := 4) (by decide), readWord_frame hcfg htop (k := 6) (by decide),
    readWord_frame hcfg htop (k := 8) (by decide), readWord_frame hcfg htop (k := 10) (by decide)]
  exact if_pos hcount

/-- Settles O47: the effect raises in the state after the advance, and the cycle stops in the state before it. -/
theorem retStops : Obligations.RetStops := by
  intro s F hcfg
  refine ⟨fun htop => ?frame, fun htop hcount => ?arguments⟩
  case frame => exact (exec_ret s).trans (runCycle_of_error (retEffect_of_underflow htop))
  case arguments => exact (exec_ret s).trans (runCycle_of_error (retEffect_of_count_underflow hcfg htop hcount))

/-! ### A return that completes -/

/-- What a return leaves: R1 to R4 and IP from the frame at FP, SP and FP above the words its count names (R228). -/
def returned (s : State) : State :=
  ((((((s.set .r1 (s.wordAt (s.fp.toNat + 10))).set .r2 (s.wordAt (s.fp.toNat + 8))).set .r3
    (s.wordAt (s.fp.toNat + 6))).set .r4 (s.wordAt (s.fp.toNat + 4))).set .ip
    (s.wordAt (s.fp.toNat + 2))).set .sp (BitVec.ofNat 16 (returnSp s))).set .fp (BitVec.ofNat 16 (returnSp s))

/-- A RET with its frame and the words its count names below `STACK_TOP` commits the return. -/
theorem exec_ret_of_fits (hcfg : s.cfg.Valid) (htop : returnSp s ≤ s.cfg.stackTop) :
    exec .ret s = .next (returned (s.advance 1)).commit := by
  have hframe : s.fp.toNat + 12 ≤ s.cfg.stackTop := (Nat.le_add_right _ _).trans htop
  rw [exec_ret]
  exact runCycle_of_ok (retEffect_eq_ok.2 ⟨frame_word_in_memory hcfg hframe (by decide), htop, rfl⟩)

theorem returned_committed (s : State) : CommittedFrom s (returned s).commit := by
  simp [CommittedFrom, returned]

/-- The register takes `newSP` without wrapping: `STACK_TOP` is at most 0xFFFF (R4). -/
theorem returnSp_toNat (hcfg : s.cfg.Valid) (htop : returnSp s ≤ s.cfg.stackTop) :
    (BitVec.ofNat 16 (returnSp s)).toNat = returnSp s := by
  obtain ⟨-, ⟨-, hword⟩, -⟩ := hcfg
  exact Nat.mod_eq_of_lt (Nat.lt_succ_of_le (htop.trans hword))

/-- Settles O46: the advance moves IP alone, so that the frame is read as it stands in the state before the cycle. -/
theorem retRestoresTheFrame : Obligations.RetRestoresTheFrame := by
  intro s F newSP hcfg htop
  have hpointer : (BitVec.ofNat 16 (returnSp s)).toNat = newSP := returnSp_toNat hcfg htop
  exact ⟨_, exec_ret_of_fits hcfg htop, rfl, rfl, rfl, rfl, rfl, hpointer, hpointer, rfl, rfl,
    returned_committed (s.advance 1)⟩

/-! ### A return after a call -/

theorem wordAt_congr (h0 : s.byteAt x = t.byteAt x) (h1 : s.byteAt (x + 1) = t.byteAt (x + 1)) :
    s.wordAt x = t.wordAt x := congrArg₂ wordOfBytes h0 h1

/-- Settles O48: what `calPushesTheFrame` says the CAL leaves is what `retRestoresTheFrame` reads; the count, half the
even distance from SP to FP, brings SP and FP back to the caller's FP. -/
theorem retUndoesCal : Obligations.RetUndoesCal := by
  intro s v a u hcfg hw hsrc hbottom hspfp htop heven
  have hmem : s.sp.toNat ≤ s.cfg.memSize := (hspfp.trans htop).trans (stackTop_le_memSize hcfg)
  obtain ⟨t, ht, hr1, hr2, hr3, hr4, hnext, hcount, -, -, htfp, -, -, -, -, -, -, -, -, -, htcfg⟩ :=
    calPushesTheFrame s a hw hsrc hbottom hmem
  refine ⟨t, ht, fun hvcfg hvfp hframe => ?_⟩
  have hcfgs : v.cfg = s.cfg := hvcfg.trans htcfg
  have hF : v.fp.toNat = s.sp.toNat - 12 := by rw [hvfp, htfp]
  have hword (k j : Nat) (hkj : k + j = 12) (hj : 2 ≤ j) :
      v.wordAt (v.fp.toNat + k) = t.wordAt (s.sp.toNat - j) := by
    rw [show v.fp.toNat + k = s.sp.toNat - j by omega]
    exact wordAt_congr (hframe _ (by omega) (by omega)) (hframe _ (by omega) (by omega))
  have hn : (v.wordAt v.fp.toNat).toNat = (s.fp.toNat - s.sp.toNat) / 2 := by
    have hfp := s.fp.isLt
    have hbase : v.wordAt v.fp.toNat = t.wordAt (s.sp.toNat - 12) := hword 0 12 rfl (by decide)
    rw [hbase, hcount]
    omega
  have hback : v.fp.toNat + 12 + 2 * (v.wordAt v.fp.toNat).toNat = s.fp.toNat := by omega
  obtain ⟨w, hexec, hip, hw4, hw3, hw2, hw1, hwsp, hwfp, hacc, hwmem, -⟩ :=
    retRestoresTheFrame v (hcfgs ▸ hcfg) (by rw [hcfgs, hback]; exact htop)
  refine ⟨w, hexec, ?next, ?r1, ?r2, ?r3, ?r4, BitVec.eq_of_toNat_eq (hwsp.trans hback),
    BitVec.eq_of_toNat_eq (hwfp.trans hback), hacc, hwmem⟩
  case next =>
    rw [hip, hword 2 10 rfl (by decide)]
    exact BitVec.eq_of_toNat_eq (hnext.trans (advance_ip_toNat s _).symm)
  case r1 => rw [hw1, hword 10 2 rfl (by decide), hr1]
  case r2 => rw [hw2, hword 8 4 rfl (by decide), hr2]
  case r3 => rw [hw3, hword 6 6 rfl (by decide), hr3]
  case r4 => rw [hw4, hword 4 8 rfl (by decide), hr4]

end Sys2Proof.Machine
end

section
/-! SUPPORT. HLT (spec/46_hlt.md rule R240): its one byte, and what a halting cycle leaves in each field. -/

namespace Sys2Proof.Machine

/-- A halting cycle field by field: the record has the address the cycle began at and the count that includes it
(R118). -/
theorem haltCycle_eq (i : Instr) (s : State) : haltCycle i s = .next { s with
    ip := s.ip + BitVec.ofNat 16 (instrLength i)
    cycles := s.cycles + 1
    run := .halted
    stop := some ⟨.hltInstruction, s.ip, some (leadByte i), s.cycles + 1⟩ } := rfl

/-- HLT is its leading byte alone (R86, R240). -/
theorem encode_hlt : encode .hlt = [0x80] := rfl

/-- Settles O18: HLT is the halting cycle of an instruction of one byte, 0x80. -/
theorem hltHalts : Obligations.HltHalts := by
  refine ⟨encode_hlt, fun s => ?_⟩
  have hlen : instrLength .hlt = 1 := congrArg List.length encode_hlt
  have hlead : leadByte .hlt = 0x80 := (List.cons.inj encode_hlt).1
  rw [exec_hlt, haltCycle_eq, hlen, hlead]
  rfl

end Sys2Proof.Machine
end

section
/-! SUPPORT. The host's moves (spec/60_exceptions.md rules R268, R269, spec/40_cycle_operands.md rule R120): a placed
instruction is what the next step runs, and a run may be driven in parts. -/

namespace Sys2Proof.Machine

variable {s t : State}

/-! ### Placing bytes -/

/-- Bytes placed where they fit stand there, every byte below them is as before, and nothing but memory changes (R268).
Unlike `loadImage_of_fits`, nothing is asked of the bytes the memory lists beyond `MEM_SIZE`. -/
theorem placeBytes_stand {bs : List Byte} {a : Nat} (hw : Memory.wf s.mem) (h : a + bs.length ≤ s.cfg.memSize) :
    ∃ m, placeBytes a bs s = { s with mem := m } ∧ (∀ x, x < a → Memory.get m x = Memory.get s.mem x) ∧
      ∀ k, k < bs.length → bs[k]? = some (Memory.get m (a + k)) := by
  induction bs generalizing a s with
  | nil => exact ⟨s.mem, rfl, fun _ _ => rfl, nofun⟩
  | cons b bs ih =>
    rw [List.length_cons] at h
    obtain ⟨m, hplace, hbelow, hstand⟩ := ih (s := { s with mem := Memory.set s.mem a b }) (a := a + 1)
      (Memory.set_wf _ _ hw) (by dsimp only; omega)
    refine ⟨m, ?_, fun x hx => ?_, fun k hk => ?_⟩
    · rw [placeBytes, writeByte_of_lt b (by omega)]
      exact hplace
    · rw [hbelow x (by omega)]
      exact Memory.get_set_other _ hw (by omega)
    · cases k with
      | zero => rw [Nat.add_zero, hbelow a (by omega), Memory.get_set_same _ _ hw, List.getElem?_cons_zero]
      | succ k => rw [List.getElem?_cons_succ, hstand k (by simpa using hk), Nat.add_right_comm, Nat.add_assoc]

/-- The bytes of a table word placed at IP are all the decoder is shown there, and placing them neither starts nor
halts a run. -/
theorem withFetchWord_shows {nbits w : Nat} (hw : Memory.wf s.mem) (h : s.ip.toNat + 5 ≤ s.cfg.memSize) :
    (s.withFetchWord nbits w).run = s.run ∧
      fetchWindow (s.withFetchWord nbits w) (s.withFetchWord nbits w).ip.toNat 5 = tableBytes nbits w := by
  obtain ⟨m, hplace, -, hstand⟩ := placeBytes_stand (bs := tableBytes nbits w) hw h
  rw [State.withFetchWord, placeTableWord, hplace]
  exact ⟨rfl, fetchWindow_of_bytes (s := { s with mem := m }) (n := 5) le_rfl h hstand⟩

theorem decode_of_decodeTableWord {nbits w : Nat} {i : Instr} (h : decodeTableWord nbits w = some i) :
    decode (tableBytes nbits w) = .instr i := by
  unfold decodeTableWord at h
  split at h
  · next j hd => rw [hd, Option.some.inj h]
  · cases h

/-- Settles O52: the window at IP is the bytes placed, and these decode to the instruction. -/
theorem placedTableWordRunsNext : Obligations.PlacedTableWordRunsNext := by
  intro s nbits w i hw hrun hfits hd
  obtain ⟨hsame, hwindow⟩ := withFetchWord_shows (nbits := nbits) (w := w) hw hfits
  apply step_of_instr (hsame.trans hrun)
  rw [hwindow]
  exact decode_of_decodeTableWord hd

/-! ### Driving in parts -/

theorem drive_succ_of_next (h : step s = .next t) (n : Nat) : drive (n + 1) s = drive n t := by rw [drive, h]

/-- Cycles beyond the stop change nothing (R120). -/
theorem drive_of_halted (h : s.run = .halted) (n : Nat) : drive n s = s := by
  cases n with
  | zero => rfl
  | succ n => rw [drive, step_of_halted h]

/-- By induction on the first part: while Running there is a next state to drive on from (R293), and a Halted state
stays as it is. -/
theorem drive_add (m n : Nat) (s : State) : drive (m + n) s = drive n (drive m s) := by
  induction m generalizing s with
  | zero => rw [Nat.zero_add, drive]
  | succ m ih =>
    cases hrun : s.run with
    | running =>
      obtain ⟨t, ht⟩ := (stepExistsExactlyWhileRunning s).1 hrun
      rw [Nat.succ_add, drive_succ_of_next ht, drive_succ_of_next ht, ih]
    | halted => rw [drive_of_halted hrun, drive_of_halted hrun, drive_of_halted hrun]

/-- Settles O53: driving adds up, and a state Halted after the first part is where the second one stays. -/
theorem pausingBetweenCyclesChangesNothing : Obligations.PausingBetweenCyclesChangesNothing := fun m n s =>
  ⟨drive_add m n s, fun hhalted => (drive_add m n s).trans (drive_of_halted hhalted n)⟩

end Sys2Proof.Machine
end

section
/-! SUPPORT. Reset (spec/10_state.md rule R38, spec/70_reset_and_hazards.md rules R280, R285): the values a launch
gives, and the first cycle in a memory of zeros. -/

namespace Sys2Proof.Machine

/-- `STACK_TOP` is in the range of a register, so that SP and FP hold it whole (R4). -/
theorem stackTop_word_toNat {cfg : Config} (h : cfg.Valid) : (BitVec.ofNat 16 cfg.stackTop).toNat = cfg.stackTop := by
  obtain ⟨-, ⟨-, htop⟩, -⟩ := h
  rw [BitVec.toNat_ofNat]
  omega

/-- Settles O19: SP and FP are `STACK_TOP` as a word; every other field is given as it is. -/
theorem resetValues : Obligations.ResetValues := by
  intro cfg mem hcfg
  have htop := stackTop_word_toNat hcfg
  exact ⟨rfl, rfl, rfl, rfl, rfl, rfl, htop, htop, rfl, rfl, rfl, rfl, rfl⟩

/-- Where no byte is listed, every byte reads as zero (log entry 3). -/
@[simp] theorem byteAt_launch_nil (cfg : Config) (a : Nat) : (State.launch cfg []).byteAt a = 0x00 := rfl

/-- Settles O20: the byte at `ENTRY` is zero, which is unassigned (`unassignedByteAtIpHalts`). -/
theorem emptyMemoryHaltsAtOnce : Obligations.EmptyMemoryHaltsAtOnce := by
  intro cfg hcfg hentry
  obtain ⟨⟨hsize, -⟩, -⟩ := hcfg
  have hip : (State.launch cfg []).ip.toNat = 0 := congrArg BitVec.toNat hentry
  have hin : (State.launch cfg []).ip.toNat < (State.launch cfg []).cfg.memSize := by
    rw [hip]
    exact Nat.lt_of_lt_of_le Nat.two_pos hsize
  have hzero : leadAssigned 0x00 = false := by decide
  have hstep := unassignedByteAtIpHalts (State.launch cfg []) rfl hin hzero
  rwa [hip, byteAt_launch_nil] at hstep

end Sys2Proof.Machine
end
